-- ==== Sys2Proof/Word.lean ====
section
/-! DEFINITION. The two bit-vector types of the core: a memory cell is a byte (R6) and every register,
address and instruction address field is an unsigned 32-bit word (R6, R9). There are no signed values. -/

namespace Sys2Proof

/-- One memory cell, one group byte, one register-id byte: `u8` (R6). -/
abbrev Byte := BitVec 8

/-- A register or an address: `u32` (R6, R9). Addition on it is the spec's `+32`, which wraps to 0. -/
abbrev Word := BitVec 32

end Sys2Proof
end

