-- ==== Sys2Proof/Config.lean ====
section
/-! DEFINITION. What an implementation of the core fixes: the parameters of rules R5 and R7.
MEM_SIZE is carried by the memory array and FLAGS_WIDTH by the flags container, so a claim over every
state is a claim for every legal value of both; the defaults below are used by `State.reset` only. -/

namespace Sys2Proof

/-- MEM_SIZE: a power of two with 4 ≤ MEM_SIZE ≤ 2^32 (R5). `code` is the exponent less 2, so that the
legal sizes, and no others, can be written. DESIGN CHOICE (the spec's own, D1): log entry 1. -/
structure MemSize where
  code : Fin 31
deriving DecidableEq, Repr

/-- The number of bytes of the memory array, MEM_SIZE (R5). -/
def MemSize.bytes (z : MemSize) : Nat := 2 ^ (z.code.val + 2)

/-- The default MEM_SIZE, 2^28 bytes (R5). DESIGN CHOICE (the spec's default): log entry 1. -/
def Config.defaultMemSize : MemSize := ⟨26⟩

/-- The default FLAGS_WIDTH, 32 bits (R7). DESIGN CHOICE (the spec's default, D3): log entry 2. -/
def Config.defaultFlagsWidth : Nat := 32

/-- A free value: where the flag ZERO stands in a flags container of the given width is left open by the
spec (R7, D4), and it has no body, so nothing can be proved to depend on it. Log entry 3. -/
opaque Config.zeroBitFree : Nat → Nat

/-- ZERO_MASK: the one bit of the named flag ZERO, at an open position below the width (R7). No
instruction and no host operation reads it (R27). -/
def Config.zeroMask (width : Nat) : BitVec width :=
  BitVec.twoPow width (Config.zeroBitFree width % width)

end Sys2Proof
end

