-- ==== Sys2Proof/Syntax.lean ====
section
/-! DEFINITION. The decoded instruction as the spec's tagged union (R33, R13), with the four-valued
register type and the typed decode errors (R111, R112). -/

namespace Sys2Proof

/-- The four general registers (R20, R21). IP and FLAGS have no register id, so no operand names them. -/
inductive Reg where
  | A
  | B
  | X
  | Y
deriving DecidableEq, Repr

/-- The registers that have a width-qualified setter (R25): the general ones and IP. -/
inductive RegName where
  | gpr (r : Reg)
  | ip
deriving DecidableEq, Repr

/-- Operand size of a register or memory access: 8, 16 or 32 bits (R46, R63). -/
inductive Width where
  | w8
  | w16
  | w32
deriving DecidableEq, Repr

/-- The addressing-mode tag of a Move instruction, bits 7:6 of the move-group byte (R62). -/
inductive Shape where
  | regToReg
  | regToMem
  | memToReg
  | memToMem
deriving DecidableEq, Repr

/-- The eleven decoded instructions (R13, R33, R75), one constructor per row of the opcode table.
Operands stand in encoding order, source first. -/
inductive Instr where
  /-- HALT (R83). -/
  | halt
  /-- MOV.RR (R90). -/
  | movRR (src dst : Reg)
  /-- MOV.RM8 (R91). -/
  | movRM8 (src : Reg) (addr : Word)
  /-- MOV.RM16 (R92). -/
  | movRM16 (src : Reg) (addr : Word)
  /-- MOV.RM32 (R93). -/
  | movRM32 (src : Reg) (addr : Word)
  /-- MOV.MR8 (R94). -/
  | movMR8 (addr : Word) (dst : Reg)
  /-- MOV.MR16 (R95). -/
  | movMR16 (addr : Word) (dst : Reg)
  /-- MOV.MR32 (R96). -/
  | movMR32 (addr : Word) (dst : Reg)
  /-- MOV.MM8 (R97). -/
  | movMM8 (srcAddr dstAddr : Word)
  /-- MOV.MM16 (R98). -/
  | movMM16 (srcAddr dstAddr : Word)
  /-- MOV.MM32 (R99). -/
  | movMM32 (srcAddr dstAddr : Word)
deriving DecidableEq, Repr

/-- Which operand an invalid register id stands in (R112). -/
inductive OperandRole where
  | src
  | dst
deriving DecidableEq, Repr

/-- The two kinds of decode error with what each records (R111, R112). -/
inductive DecodeError where
  /-- The group byte is neither `0x00` nor `0x01`; records it (R111). -/
  | invalidGroup (value : Byte)
  /-- A register-id byte is not 0 to 3; records the operand and the byte (R112). -/
  | invalidRegisterId (operand : OperandRole) (value : Byte)
deriving DecidableEq, Repr

end Sys2Proof
end

