-- ==== Sys2Proof/Machine/Memory.lean ====
section
/-! DEFINITION. The memory array `M` and its access primitives (R29, R40 to R47). The array is held as the
list of its nonzero bytes by physical index, strictly rising, so that equal memories are equal data; every
byte exists and no access fails (R29, R41). -/

namespace Sys2Proof.Machine

/-- The memory array: MEM_SIZE and the listed bytes, keyed by physical index (R5, R29, R41). -/
structure Memory where
  size : MemSize
  cells : List Host.Cell
deriving DecidableEq, Repr

/-- What an unlisted byte reads as. Any contents of the array can be listed, so this fixes the
representation; as the contents right after reset it is a DESIGN CHOICE (the spec's default, R130, D6):
log entries 5 and 6. -/
def Memory.unlisted : Byte := 0x00#8

/-- The byte listed under a key, or what an unlisted byte reads as. -/
def cellsLookup : List Host.Cell → Nat → Byte
  | [], _ => Memory.unlisted
  | c :: cs, i => if c.1 = i then c.2 else cellsLookup cs i

/-- The list without the entries of one key. -/
def cellsErase : List Host.Cell → Nat → List Host.Cell
  | [], _ => []
  | c :: cs, i => if c.1 = i then cellsErase cs i else c :: cellsErase cs i

/-- The list with an entry put before the first larger key. -/
def cellsInsert : List Host.Cell → Host.Cell → List Host.Cell
  | [], c => [c]
  | d :: ds, c => if c.1 < d.1 then c :: d :: ds else d :: cellsInsert ds c

/-- Every key is below all later keys. -/
def cellsRising : List Host.Cell → Bool
  | [] => true
  | c :: cs => cs.all (fun d => decide (c.1 < d.1)) && cellsRising cs

/-- The canonical form: keys strictly rising and below MEM_SIZE, and no entry that says what an unlisted
byte reads as anyway. -/
def Memory.wf (m : Memory) : Bool :=
  cellsRising m.cells && m.cells.all (fun c => decide (c.1 < m.size.bytes) && c.2 != Memory.unlisted)

/-- An array of the given size with every byte zero. -/
def Memory.empty (z : MemSize) : Memory := { size := z, cells := [] }

/-- `M[i]`, the byte at physical index i (R11). -/
def Memory.get (m : Memory) (i : Nat) : Byte := cellsLookup m.cells i

/-- `M[i] <- b` (R11), keeping the canonical form. -/
def Memory.set (m : Memory) (i : Nat) (b : Byte) : Memory :=
  if b = Memory.unlisted then { size := m.size, cells := cellsErase m.cells i }
  else { size := m.size, cells := cellsInsert (cellsErase m.cells i) (i, b) }

/-- `phys(a) = a mod MEM_SIZE` (R41). -/
def Memory.phys (m : Memory) (a : Word) : Nat := a.toNat % m.size.bytes

/-- The byte an address selects, `M[phys(a)]` (R41). -/
def Memory.byteAt (m : Memory) (a : Word) : Byte := m.get (m.phys a)

/-- `M[phys(a)] <- b` (R41). -/
def Memory.setByteAt (m : Memory) (a : Word) (b : Byte) : Memory := m.set (m.phys a) b

/-- The address of byte k of a multi-byte access: `a +32 k` (R41). -/
def byteAddr (a : Word) (k : Nat) : Word := a + BitVec.ofNat 32 k

/-- Byte k of the instruction at p, the byte at `p +32 k` (R51, R60). -/
def Memory.instrByte (m : Memory) (p : Word) (k : Nat) : Byte := m.byteAt (byteAddr p k)

/-- Byte k of a word, `v[8k+7 : 8k]` (R8, R10). -/
def byteOf (v : Word) (k : Nat) : Byte := v.extractLsb' (8 * k) 8

/-- A byte placed as byte k of a word, `zext(b) << 8k` (R9, R10). -/
def byteInWord (b : Byte) (k : Nat) : Word := b.setWidth 32 <<< (8 * k)

/-- `MemRead(addr, n)` (R43), zero extended to 32 bits: n bytes, each address wrapped by itself, the lowest
address in bits 7:0. -/
def Memory.read (m : Memory) (addr : Word) : Nat → Word
  | 0 => 0#32
  | k + 1 => m.read addr k ||| byteInWord (m.byteAt (byteAddr addr k)) k

/-- `MemWrite(addr, n, v)` (R44): the low n bytes of v, the least significant at addr, in ascending order
(DESIGN CHOICE, the spec's own, D10, unobservable: log entry 11). -/
def Memory.write (m : Memory) (addr : Word) (v : Word) : Nat → Memory
  | 0 => m
  | k + 1 => (m.write addr v k).setByteAt (byteAddr addr k) (byteOf v k)

/-- An array of the given size holding an image: zero but for the listed bytes, indices reduced modulo
MEM_SIZE, a later entry replacing an earlier one (R130: INIT_MEM). -/
def Memory.ofImage (z : MemSize) (image : List Host.Cell) : Memory :=
  image.foldl (fun m c => m.set (c.1 % z.bytes) c.2) (Memory.empty z)

/-- The bytes of a list placed at consecutive addresses from `a`, the last one first, so that where the
list is longer than the array the lowest-numbered bytes stand. -/
def Memory.placeBytes (m : Memory) (a : Word) : List Byte → Memory
  | [] => m
  | b :: bs => (m.placeBytes (a + 1#32) bs).setByteAt a b

end Sys2Proof.Machine
end

