-- ==== Sys2Proof/Machine/Cursor.lean ====
section
/-! DEFINITION. The memory cursor, the decoder's only way to read memory (R48 to R52): transient state of
one operation (R32), with an index that wraps on every byte (90_conflicts.md C1, C2) and a count of the
bytes consumed. -/

namespace Sys2Proof.Machine

/-- The cursor's index `i` and its count `t` (R48). -/
structure Cursor where
  index : Nat
  travelled : Nat
deriving DecidableEq, Repr

/-- A cursor created at start address p: the start is reduced modulo MEM_SIZE (R48, C2). -/
def Cursor.start (m : Memory) (p : Word) : Cursor := { index := m.phys p, travelled := 0 }

/-- The index `next8` reads at, after the source's wrap check (R49). -/
def Cursor.wrapped (m : Memory) (c : Cursor) : Nat := if m.size.bytes ≤ c.index then 0 else c.index

/-- `next8()` (R49). -/
def Cursor.next8 (m : Memory) (c : Cursor) : Byte × Cursor :=
  (m.get (c.wrapped m),
   { index := (c.wrapped m + 1) % m.size.bytes, travelled := c.travelled + 1 })

/-- n bytes from physical index i, each wrapped individually, low byte first (R50). -/
def Cursor.bytesLE (m : Memory) (i : Nat) : Nat → Word
  | 0 => 0#32
  | k + 1 => Cursor.bytesLE m i k ||| byteInWord (m.get ((i + k) % m.size.bytes)) k

/-- The cursor after an n-byte read (R50). -/
def Cursor.advance (m : Memory) (c : Cursor) (n : Nat) : Cursor :=
  { index := (c.index + n) % m.size.bytes, travelled := c.travelled + n }

/-- `next16()` (R50). The decoder does not use it; it is part of the cursor's interface. -/
def Cursor.next16 (m : Memory) (c : Cursor) : BitVec 16 × Cursor :=
  ((Cursor.bytesLE m c.index 2).setWidth 16, c.advance m 2)

/-- `next32()` (R50). -/
def Cursor.next32 (m : Memory) (c : Cursor) : Word × Cursor :=
  (Cursor.bytesLE m c.index 4, c.advance m 4)

/-- `travelled()`, as the 32-bit delta of rule R72 (R51). DESIGN CHOICE (the spec's width, D24): log entry 12. -/
def Cursor.delta (c : Cursor) : Word := BitVec.ofNat 32 c.travelled

end Sys2Proof.Machine
end

