-- ==== Sys2Proof/WellFormed.lean ====
section
/-! DEFINITION. Well-formedness. A decoded instruction is well formed by its type (R33, R82); what can be
ill formed is a sequence of bytes, and rule R75 lists exactly how. `encodingWf` is that list as a check on
bytes, written without the decoder. -/

namespace Sys2Proof

/-- Every decoded instruction is well formed: its register operands are of the four-valued type, so it
cannot name IP or an invalid register, and every 32-bit address is legal (R33, R66, R82). -/
def Instr.wf (_ : Instr) : Bool := true

/-- The legal group bytes (R61, R75). -/
def groupByteOk (b : Byte) : Bool := b == 0x00#8 || b == 0x01#8

/-- The legal register-id bytes: the byte is compared whole (R65). -/
def regIdOk (b : Byte) : Bool := b == 0x00#8 || b == 0x01#8 || b == 0x02#8 || b == 0x03#8

/-- The operand bytes of a Move instruction, by bits 7:6 of the move-group byte (R62, R67 to R70): how
many there are, and the register ids among them. -/
def moveOperandsWf (shapeBits : BitVec 2) (operands : List Byte) : Bool :=
  if shapeBits = 0#2 then
    operands.length == 2 && regIdOk (operands.getD 0 0xFF#8) && regIdOk (operands.getD 1 0xFF#8)
  else if shapeBits = 1#2 then operands.length == 5 && regIdOk (operands.getD 0 0xFF#8)
  else if shapeBits = 2#2 then operands.length == 5 && regIdOk (operands.getD 4 0xFF#8)
  else operands.length == 8

/-- The bytes are exactly one legally encoded instruction (R60, R75). The ignored bits of the move-group
byte are not looked at (R63, R64). -/
def encodingWf : List Byte → Bool
  | [] => false
  | [g] => g == 0x00#8
  | g :: mg :: operands => g == 0x01#8 && moveOperandsWf (mg.extractLsb' 6 2) operands

end Sys2Proof
end

