-- ==== Sys2Proof/Decode.lean ====
section
/-! DEFINITION. The decoder (R60 to R76), total on any memory array and any start address, and after it the
encoder, written from the same byte tables (R67 to R70, R77), and the opcode table of rule R79. -/

namespace Sys2Proof

open Sys2Proof.Machine

/-- What a decode ends in: `Ok(instr, delta)` or a decode error (R12, R71). An error carries no partial
instruction and no delta (R73). -/
inductive DecodeResult where
  | ok (instr : Instr) (delta : Word)
  | error (e : DecodeError)
deriving DecidableEq, Repr

/-- The register a register-id byte names; the byte is compared whole (R21, R65). -/
def regOfId (b : Byte) : Option Reg :=
  if b = 0x00#8 then some .A
  else if b = 0x01#8 then some .B
  else if b = 0x02#8 then some .X
  else if b = 0x03#8 then some .Y
  else none

/-- The shape, bits 7:6 of the move-group byte (R62). All four values are defined. -/
def shapeOf (mg : Byte) : Shape :=
  let ss := mg.extractLsb' 6 2
  if ss = 0#2 then .regToReg
  else if ss = 1#2 then .regToMem
  else if ss = 2#2 then .memToReg
  else .memToMem

/-- The width, from bits 5:4 of the move-group byte: code 3 is 32 bits, as code 2 (R63). -/
def widthOf (mg : Byte) : Width :=
  let ww := mg.extractLsb' 4 2
  if ww = 0#2 then .w8
  else if ww = 1#2 then .w16
  else .w32

/-- `RegToMem{8,16,32}` by width (R33, R68). -/
def mkRegToMem : Width → Reg → Word → Instr
  | .w8, src, addr => .movRM8 src addr
  | .w16, src, addr => .movRM16 src addr
  | .w32, src, addr => .movRM32 src addr

/-- `MemToReg{8,16,32}` by width (R33, R69). -/
def mkMemToReg : Width → Word → Reg → Instr
  | .w8, addr, dst => .movMR8 addr dst
  | .w16, addr, dst => .movMR16 addr dst
  | .w32, addr, dst => .movMR32 addr dst

/-- `MemToMem{8,16,32}` by width (R33, R70). -/
def mkMemToMem : Width → Word → Word → Instr
  | .w8, a, b => .movMM8 a b
  | .w16, a, b => .movMM16 a b
  | .w32, a, b => .movMM32 a b

/-- Shape 0: two register-id bytes, both read, then the source checked before the destination (R67, R71).
The order of the checks is a DESIGN CHOICE (the spec's own, D8): log entry 8. -/
def decodeRegToReg (m : Memory) (c : Cursor) : DecodeResult :=
  let s := c.next8 m
  let d := s.2.next8 m
  match regOfId s.1 with
  | none => .error (.invalidRegisterId .src s.1)
  | some src =>
    match regOfId d.1 with
    | none => .error (.invalidRegisterId .dst d.1)
    | some dst => .ok (.movRR src dst) d.2.delta

/-- Shape 1: a source register id, then a destination address (R68, R71). -/
def decodeRegToMem (m : Memory) (w : Width) (c : Cursor) : DecodeResult :=
  let s := c.next8 m
  match regOfId s.1 with
  | none => .error (.invalidRegisterId .src s.1)
  | some src =>
    let a := s.2.next32 m
    .ok (mkRegToMem w src a.1) a.2.delta

/-- Shape 2: a source address, then a destination register id (R69, R71). -/
def decodeMemToReg (m : Memory) (w : Width) (c : Cursor) : DecodeResult :=
  let a := c.next32 m
  let d := a.2.next8 m
  match regOfId d.1 with
  | none => .error (.invalidRegisterId .dst d.1)
  | some dst => .ok (mkMemToReg w a.1 dst) d.2.delta

/-- Shape 3: a source address, then a destination address; no register id, so no error (R70, R71). -/
def decodeMemToMem (m : Memory) (w : Width) (c : Cursor) : DecodeResult :=
  let a := c.next32 m
  let b := a.2.next32 m
  .ok (mkMemToMem w a.1 b.1) b.2.delta

/-- The Move sub-decoder: the move-group byte, then the operands of its shape (R62, R71). Bits 3:0 of the
move-group byte are not read: DESIGN CHOICE (the spec's own, D12), log entry 7. -/
def decodeMove (m : Memory) (c : Cursor) : DecodeResult :=
  let mg := c.next8 m
  match shapeOf mg.1 with
  | .regToReg => decodeRegToReg m mg.2
  | .regToMem => decodeRegToMem m (widthOf mg.1) mg.2
  | .memToReg => decodeMemToReg m (widthOf mg.1) mg.2
  | .memToMem => decodeMemToMem m (widthOf mg.1) mg.2

/-- `Decode(p)` (R61, R71): a total function of the memory array and the start address. -/
def decode (m : Memory) (p : Word) : DecodeResult :=
  let g := (Cursor.start m p).next8 m
  if g.1 = 0x00#8 then .ok .halt g.2.delta
  else if g.1 = 0x01#8 then decodeMove m g.2
  else .error (.invalidGroup g.1)

/-- The decoded instruction, or none where the decode fails: what `snapshot` shows (R86). -/
def DecodeResult.instr? : DecodeResult → Option Instr
  | .ok i _ => some i
  | .error _ => none

/-- The numeric code of a decode error (R111, R112). DESIGN CHOICE (the spec's own, D9): log entry 9. -/
def DecodeError.code : DecodeError → Nat
  | .invalidGroup _ => 1
  | .invalidRegisterId _ _ => 2

/-- The numeric code of the operand an invalid register id stands in (R112). DESIGN CHOICE (the spec's own,
D9): log entry 9. -/
def OperandRole.code : OperandRole → Nat
  | .src => 0
  | .dst => 1

/-! ## The encoder -/

/-- The id byte of a register (R21). -/
def regId : Reg → Byte
  | .A => 0x00#8
  | .B => 0x01#8
  | .X => 0x02#8
  | .Y => 0x03#8

/-- The four bytes of an address, bits 7:0 at the lowest offset (R66). -/
def addrBytes (a : Word) : List Byte := [byteOf a 0, byteOf a 1, byteOf a 2, byteOf a 3]

/-- The bits of an encoding that the decoder ignores (R75): bits 3:0 of the move-group byte, bit 4 where
bit 5 is 1 (width code 3 for 2), and bits 5:4 in shape 0. An assembler writes them all 0 (R64, R77). -/
structure IgnoredBits where
  low : BitVec 4
  wide : BitVec 1
  rrWidth : BitVec 2
deriving DecidableEq, Repr

/-- The ignored bits as an assembler writes them (R77). -/
def IgnoredBits.zero : IgnoredBits := { low := 0#4, wide := 0#1, rrWidth := 0#2 }

/-- The move-group byte `SS WW xx xxxx` (R62). -/
def moveGroup (ss ww : BitVec 2) (low : BitVec 4) : Byte := ss ++ ww ++ low

/-- The two width-code bits of a 32-bit form: `10`, or `11` with the ignored bit set (R63). -/
def wideCode (g : IgnoredBits) : BitVec 2 := 1#1 ++ g.wide

/-- The bytes of an instruction with given values of the ignored bits (R67 to R70, R74). -/
def encodeWith (g : IgnoredBits) : Instr → List Byte
  | .halt => [0x00#8]
  | .movRR src dst => [0x01#8, moveGroup 0#2 g.rrWidth g.low, regId src, regId dst]
  | .movRM8 src addr => [0x01#8, moveGroup 1#2 0#2 g.low, regId src] ++ addrBytes addr
  | .movRM16 src addr => [0x01#8, moveGroup 1#2 1#2 g.low, regId src] ++ addrBytes addr
  | .movRM32 src addr => [0x01#8, moveGroup 1#2 (wideCode g) g.low, regId src] ++ addrBytes addr
  | .movMR8 addr dst => [0x01#8, moveGroup 2#2 0#2 g.low] ++ addrBytes addr ++ [regId dst]
  | .movMR16 addr dst => [0x01#8, moveGroup 2#2 1#2 g.low] ++ addrBytes addr ++ [regId dst]
  | .movMR32 addr dst => [0x01#8, moveGroup 2#2 (wideCode g) g.low] ++ addrBytes addr ++ [regId dst]
  | .movMM8 a b => [0x01#8, moveGroup 3#2 0#2 g.low] ++ addrBytes a ++ addrBytes b
  | .movMM16 a b => [0x01#8, moveGroup 3#2 1#2 g.low] ++ addrBytes a ++ addrBytes b
  | .movMM32 a b => [0x01#8, moveGroup 3#2 (wideCode g) g.low] ++ addrBytes a ++ addrBytes b

/-- The bytes an assembler writes for an instruction (R77). -/
def encode (i : Instr) : List Byte := encodeWith .zero i

/-- The length of an instruction in bytes (R60, R72). -/
def Instr.length : Instr → Nat
  | .halt => 1
  | .movRR _ _ => 4
  | .movRM8 _ _ => 7
  | .movRM16 _ _ => 7
  | .movRM32 _ _ => 7
  | .movMR8 _ _ => 7
  | .movMR16 _ _ => 7
  | .movMR32 _ _ => 7
  | .movMM8 _ _ => 10
  | .movMM16 _ _ => 10
  | .movMM32 _ _ => 10

/-! ## The opcode table -/

/-- A row of the opcode table: it selects an instruction when `(opc16 & mask) == match`, opc16 being
`(byte0 << 8) | byte1` (R79). -/
structure OpcodeRow where
  mnemonic : String
  pattern : BitVec 16
  mask : BitVec 16
  length : Nat
deriving DecidableEq, Repr

/-- The eleven rows (R74, R79). -/
def opcodeTable : List OpcodeRow :=
  [⟨"HALT", 0x0000#16, 0xFF00#16, 1⟩, ⟨"MOV.RR", 0x0100#16, 0xFFC0#16, 4⟩,
   ⟨"MOV.RM8", 0x0140#16, 0xFFF0#16, 7⟩, ⟨"MOV.RM16", 0x0150#16, 0xFFF0#16, 7⟩,
   ⟨"MOV.RM32", 0x0160#16, 0xFFE0#16, 7⟩, ⟨"MOV.MR8", 0x0180#16, 0xFFF0#16, 7⟩,
   ⟨"MOV.MR16", 0x0190#16, 0xFFF0#16, 7⟩, ⟨"MOV.MR32", 0x01A0#16, 0xFFE0#16, 7⟩] ++
  [⟨"MOV.MM8", 0x01C0#16, 0xFFF0#16, 10⟩, ⟨"MOV.MM16", 0x01D0#16, 0xFFF0#16, 10⟩,
   ⟨"MOV.MM32", 0x01E0#16, 0xFFE0#16, 10⟩]

/-- `opc16 = (byte0 << 8) | byte1` (R79). -/
def opc16 (byte0 byte1 : Byte) : BitVec 16 := byte0 ++ byte1

/-- A row selects the two bytes (R79). -/
def OpcodeRow.selects (r : OpcodeRow) (opc : BitVec 16) : Bool := opc &&& r.mask == r.pattern

/-- The spec's name of an instruction (R13). -/
def Instr.mnemonic : Instr → String
  | .halt => "HALT"
  | .movRR _ _ => "MOV.RR"
  | .movRM8 _ _ => "MOV.RM8"
  | .movRM16 _ _ => "MOV.RM16"
  | .movRM32 _ _ => "MOV.RM32"
  | .movMR8 _ _ => "MOV.MR8"
  | .movMR16 _ _ => "MOV.MR16"
  | .movMR32 _ _ => "MOV.MR32"
  | .movMM8 _ _ => "MOV.MM8"
  | .movMM16 _ _ => "MOV.MM16"
  | .movMM32 _ _ => "MOV.MM32"

/-! ## Words numbered as the opcode table numbers them -/

/-- The longest instruction, in bytes (R60). -/
def maxInstrBytes : Nat := 10

/-- The bytes of an instruction whose bits are w, numbered as the opcode table numbers them: the table's
first word is opc16, whose bits 15:8 are byte 0 and bits 7:0 byte 1 (R79), and bits from 16 on are the
later bytes in order. A row of 8 bits or fewer is byte 0 alone. Log entry 17. -/
def tableWordBytes (nbits w : Nat) : List Byte :=
  let b0 := if nbits ≤ 8 then w else w / 256
  let b1 := if nbits ≤ 8 then 0 else w
  [BitVec.ofNat 8 b0, BitVec.ofNat 8 b1] ++
    (List.range (maxInstrBytes - 2)).map (fun j =>
      if 8 * (j + 2) < nbits then BitVec.ofNat 8 (w / 2 ^ (8 * (j + 2))) else 0#8)

/-- The instruction the decoder reads from an instruction whose bits are w; none where it refuses. -/
def decodeTableWord (nbits w : Nat) : Option Instr :=
  (decode ((Memory.empty Config.defaultMemSize).placeBytes 0#32 (tableWordBytes nbits w)) 0#32).instr?

end Sys2Proof
end

