-- ==== Sys2Proof/Machine/Flags.lean ====
section
/-! DEFINITION. The flags bit-set (R7, R20, R27, R28): a container generic over its width, with the
operations rule R28 gives it. No instruction and no host operation of the core calls any of them (R27). -/

namespace Sys2Proof.Machine

/-- `FLAGS` together with its width FLAGS_WIDTH (R7, R20). -/
structure FlagSet where
  width : Nat
  bits : BitVec width
deriving DecidableEq, Repr

/-- `value()` (R28). -/
def FlagSet.value (f : FlagSet) : BitVec f.width := f.bits

/-- `contains(mask)`: all bits of the mask are set (R28). DESIGN CHOICE (the spec's own, D5): log entry 4. -/
def FlagSet.contains (f : FlagSet) (mask : BitVec f.width) : Bool := (f.bits &&& mask) == mask

/-- `set(mask)`, the compound `|=` (R28). -/
def FlagSet.set (f : FlagSet) (mask : BitVec f.width) : FlagSet := { width := f.width, bits := f.bits ||| mask }

/-- `clear(mask)`, the compound `&= ~mask` (R28). -/
def FlagSet.clear (f : FlagSet) (mask : BitVec f.width) : FlagSet := { width := f.width, bits := f.bits &&& ~~~mask }

/-- `and_assign(mask)` (R28). -/
def FlagSet.andAssign (f : FlagSet) (mask : BitVec f.width) : FlagSet := { width := f.width, bits := f.bits &&& mask }

/-- `xor_assign(mask)` (R28). -/
def FlagSet.xorAssign (f : FlagSet) (mask : BitVec f.width) : FlagSet := { width := f.width, bits := f.bits ^^^ mask }

/-- The mask of the one named flag, ZERO, in this container; its position is open (R7). -/
def FlagSet.zeroMask (f : FlagSet) : BitVec f.width := Config.zeroMask f.width

end Sys2Proof.Machine
end

