-- ==== Sys2Proof/Machine/State.lean ====
section
/-! DEFINITION. The architectural state S = (A, B, X, Y, IP, FLAGS, M) of rule R31, the ways a step can stop,
and the state after reset. There is no other state (R30). -/

namespace Sys2Proof.Machine

/-- Why the machine stops with a fault: a decode error and nothing else (R110). -/
inductive Fault where
  /-- Raised by `step` where the decode at IP fails: the cycle returns the error and no state has changed
  (R81, D16). Safe: the model stops where the host may only retry the same bytes. Log entry 14. -/
  | decodeError (e : DecodeError)
deriving DecidableEq, Repr

/-- Why the model gives an instruction no meaning. Every instruction has one, so no step is refused. -/
inductive Refusal where
  /-- For an arm of `exec` that has no meaning; no arm raises it. Safe: the model stops. -/
  | notModelled (mnemonic : String)
deriving DecidableEq, Repr

/-- The architectural state (R20, R29, R31). MEM_SIZE stands in `mem` and FLAGS_WIDTH in `flags`. -/
structure State where
  /-- General register A, id 0 (R21). -/
  a : Word
  /-- General register B, id 1 (R21). -/
  b : Word
  /-- General register X, id 2 (R21). -/
  x : Word
  /-- General register Y, id 3 (R21). -/
  y : Word
  /-- The instruction pointer, a full 32-bit value, never reduced modulo MEM_SIZE (R23). -/
  ip : Word
  /-- The flags bit-set, present and inert (R27). -/
  flags : FlagSet
  /-- The memory array (R29). -/
  mem : Memory
deriving DecidableEq, Repr

/-- The state at the spec's default INIT: every register 0, FLAGS 0, every byte 0 (R130). DESIGN CHOICE
(the spec gives no reset value and names this default for a simulator, D6), unsafe: log entries 1, 2, 5. -/
def State.reset : State where
  a := 0#32
  b := 0#32
  x := 0#32
  y := 0#32
  ip := 0#32
  flags := { width := Config.defaultFlagsWidth, bits := 0#Config.defaultFlagsWidth }
  mem := Memory.empty Config.defaultMemSize

end Sys2Proof.Machine
end

