-- ==== Sys2Proof/Machine/Operands.lean ====
section
/-! DEFINITION. Widths and operand access: how many bytes and bits a width covers (R9, R46), reading a whole
register (R26) and the width-qualified register setter, a masked merge (R25). -/

namespace Sys2Proof.Machine

/-- The bytes of an access of a width (R46). -/
def widthBytes : Width → Nat
  | .w8 => 1
  | .w16 => 2
  | .w32 => 4

/-- `mask_8`, `mask_16`, `mask_32` (R9). -/
def widthMask : Width → Word
  | .w8 => 0x000000FF#32
  | .w16 => 0x0000FFFF#32
  | .w32 => 0xFFFFFFFF#32

/-- `(old & ~mask_w) | (v & mask_w)`: the masked merge of rule R25. -/
def mergeWidth (w : Width) (old v : Word) : Word := (old &&& ~~~widthMask w) ||| (v &&& widthMask w)

/-- `x[r]`: the whole register (R11, R26). -/
def State.reg (s : State) : RegName → Word
  | .gpr .A => s.a
  | .gpr .B => s.b
  | .gpr .X => s.x
  | .gpr .Y => s.y
  | .ip => s.ip

/-- `SetReg(r, w, v)` (R25). The registers do not alias (R22). -/
def State.setReg (s : State) (r : RegName) (w : Width) (v : Word) : State :=
  match r with
  | .gpr .A => { s with a := mergeWidth w s.a v }
  | .gpr .B => { s with b := mergeWidth w s.b v }
  | .gpr .X => { s with x := mergeWidth w s.x v }
  | .gpr .Y => { s with y := mergeWidth w s.y v }
  | .ip => { s with ip := mergeWidth w s.ip v }

/-- The low w bits of a source register, `x[src] & mask_w` (R26). -/
def State.srcReg (s : State) (w : Width) (src : Reg) : Word := s.reg (.gpr src) &&& widthMask w

/-- The w bits at a source address, `MemRead(addr, w/8)` (R43). -/
def State.srcMem (s : State) (w : Width) (addr : Word) : Word := s.mem.read addr (widthBytes w)

/-- `MemWrite(addr, w/8, v)` on the state (R44). -/
def State.dstMem (s : State) (w : Width) (addr v : Word) : State :=
  { s with mem := s.mem.write addr v (widthBytes w) }

end Sys2Proof.Machine
end

