-- ==== Sys2Proof/Machine/Ops.lean ====
section
/-! DEFINITION. The shared operations of the execution engine: the three kinds of move, the advance of IP,
and the return of a decode error, which is all the core has of an exception (R110, R115, R116). -/

namespace Sys2Proof.Machine

/-- What a step or a meaning answers. -/
abbrev Outcome := Host.Outcome State Fault Refusal

/-- MOV.RM at a width: the low w bits of the source register stored (R91 to R93). -/
def State.storeReg (s : State) (w : Width) (src : Reg) (addr : Word) : State :=
  s.dstMem w addr (s.srcReg w src)

/-- MOV.MR at a width: w bits loaded and merged into the destination register (R94 to R96). -/
def State.loadReg (s : State) (w : Width) (addr : Word) (dst : Reg) : State :=
  s.setReg (.gpr dst) w (s.srcMem w addr)

/-- MOV.MM at a width: all w bits read, then written (R97 to R99). That an overlapping destination gets the
old source bytes is a DESIGN CHOICE (the spec's own, D11), unsafe: log entry 10. -/
def State.copyMem (s : State) (w : Width) (srcAddr dstAddr : Word) : State :=
  s.dstMem w dstAddr (s.srcMem w srcAddr)

/-- `IP <- IP +32 delta` through the 32-bit setter (R80): wraps at 2^32 and is never reduced modulo
MEM_SIZE (R23). -/
def State.advanceIp (s : State) (delta : Word) : State := s.setReg .ip .w32 (s.ip + delta)

/-- A decode error ends the cycle and is returned to the host (R81, R110). It is no trap: nothing is saved,
no register changes and control goes nowhere (R115), so there is nothing to return from (R116). -/
def raiseDecodeError (e : DecodeError) : Outcome := .fault (.decodeError e)

/-- The state with the bytes of an instruction placed in memory where IP points. -/
def State.placeAtIp (s : State) (bs : List Byte) : State := { s with mem := s.mem.placeBytes s.ip bs }

end Sys2Proof.Machine
end

