-- ==== Sys2Proof/Machine/Halt.lean ====
section
/-! DEFINITION. HALT (R83, R84). -/

namespace Sys2Proof.Machine

/-- `execute(Halt)`: no effect, and the core does not stop; stopping is the host's act (R83, R84). -/
def execHalt (s : State) : Outcome := .next s

end Sys2Proof.Machine
end

