-- ==== Sys2Proof/Machine/Move.lean ====
section
/-! DEFINITION. The ten MOV instructions (R90 to R100). None reads or writes IP or FLAGS and none can fail. -/

namespace Sys2Proof.Machine

/-- MOV.RR: a full 32-bit copy, `SetReg(dst, 32, x[src])` (R90). -/
def execMovRR (src dst : Reg) (s : State) : Outcome := .next (s.setReg (.gpr dst) .w32 (s.reg (.gpr src)))

/-- MOV.RM8: `MemWrite(addr, 1, x[src] & mask_8)` (R91). -/
def execMovRM8 (src : Reg) (addr : Word) (s : State) : Outcome := .next (s.storeReg .w8 src addr)

/-- MOV.RM16: `MemWrite(addr, 2, x[src] & mask_16)` (R92). -/
def execMovRM16 (src : Reg) (addr : Word) (s : State) : Outcome := .next (s.storeReg .w16 src addr)

/-- MOV.RM32: `MemWrite(addr, 4, x[src])` (R93). -/
def execMovRM32 (src : Reg) (addr : Word) (s : State) : Outcome := .next (s.storeReg .w32 src addr)

/-- MOV.MR8: `SetReg(dst, 8, MemRead(addr, 1))` (R94). -/
def execMovMR8 (addr : Word) (dst : Reg) (s : State) : Outcome := .next (s.loadReg .w8 addr dst)

/-- MOV.MR16: `SetReg(dst, 16, MemRead(addr, 2))` (R95). -/
def execMovMR16 (addr : Word) (dst : Reg) (s : State) : Outcome := .next (s.loadReg .w16 addr dst)

/-- MOV.MR32: `SetReg(dst, 32, MemRead(addr, 4))` (R96). -/
def execMovMR32 (addr : Word) (dst : Reg) (s : State) : Outcome := .next (s.loadReg .w32 addr dst)

/-- MOV.MM8: one byte read, then written (R97). -/
def execMovMM8 (srcAddr dstAddr : Word) (s : State) : Outcome := .next (s.copyMem .w8 srcAddr dstAddr)

/-- MOV.MM16: both bytes read first, then written (R98). -/
def execMovMM16 (srcAddr dstAddr : Word) (s : State) : Outcome := .next (s.copyMem .w16 srcAddr dstAddr)

/-- MOV.MM32: all four bytes read first, then written (R99). -/
def execMovMM32 (srcAddr dstAddr : Word) (s : State) : Outcome := .next (s.copyMem .w32 srcAddr dstAddr)

end Sys2Proof.Machine
end

