-- ==== Sys2Proof/Machine/Dispatch.lean ====
section
/-! DEFINITION. `execute(instr)`: the effects of one decoded instruction and nothing else (R82). -/

namespace Sys2Proof.Machine

def exec (i : Instr) (s : State) : Host.Outcome State Fault Refusal :=
  match i with
  | .halt => Sys2Proof.Machine.execHalt s
  | .movRR src dst => Sys2Proof.Machine.execMovRR src dst s
  | .movRM8 src addr => Sys2Proof.Machine.execMovRM8 src addr s
  | .movRM16 src addr => Sys2Proof.Machine.execMovRM16 src addr s
  | .movRM32 src addr => Sys2Proof.Machine.execMovRM32 src addr s
  | .movMR8 addr dst => Sys2Proof.Machine.execMovMR8 addr dst s
  | .movMR16 addr dst => Sys2Proof.Machine.execMovMR16 addr dst s
  | .movMR32 addr dst => Sys2Proof.Machine.execMovMR32 addr dst s
  | .movMM8 srcAddr dstAddr => Sys2Proof.Machine.execMovMM8 srcAddr dstAddr s
  | .movMM16 srcAddr dstAddr => Sys2Proof.Machine.execMovMM16 srcAddr dstAddr s
  | .movMM32 srcAddr dstAddr => Sys2Proof.Machine.execMovMM32 srcAddr dstAddr s

end Sys2Proof.Machine
end

