-- ==== Sys2Proof/Machine/Step.lean ====
section
/-! DEFINITION. One step of the machine is one `cycle()` of the core (R80, R81, R136). -/

namespace Sys2Proof.Machine

/-- `cycle()`: decode at IP; on success advance IP by the length and execute; on a decode error change
nothing and return the error (R80, R81). -/
def step (s : State) : Host.Outcome State Fault Refusal :=
  match decode s.mem s.ip with
  | .error e => raiseDecodeError e
  | .ok i delta => exec i (s.advanceIp delta)

/-- The state with an instruction, given as a word numbered as the opcode table numbers it, placed where
`step` fetches next. It stands for the load of a program from outside, as part of INIT_MEM (R133): log
entry 13. -/
def State.withFetchWord (s : State) (nbits w : Nat) : State := s.placeAtIp (tableWordBytes nbits w)

end Sys2Proof.Machine
end

