-- ==== Sys2Proof/Machine/HostOps.lean ====
section
/-! DEFINITION. The host-facing interface (R14, R31, R85, R86, R132): the state at construction, `cycle` with
its response, `execute`, `snapshot`, `run_cycle`, and a host that runs a program until HALT (R84). -/

namespace Sys2Proof.Machine

/-- INIT, what the core is constructed with (R130, R132): the registers, FLAGS with its width, MEM_SIZE, and
INIT_MEM as the bytes that are not zero. -/
structure Init where
  a : Word
  b : Word
  x : Word
  y : Word
  ip : Word
  flags : FlagSet
  size : MemSize
  image : List Host.Cell
deriving DecidableEq, Repr

/-- The state of a core constructed with INIT (R130, R132). -/
def State.ofInit (n : Init) : State where
  a := n.a
  b := n.b
  x := n.x
  y := n.y
  ip := n.ip
  flags := n.flags
  mem := Memory.ofImage n.size n.image

/-- What `cycle` returns: the executed instruction, by which the host recognises HALT, or the decode error
(R80, R81). That it carries the instruction is a DESIGN CHOICE (the spec's own, D15): log entry 15. -/
inductive Response where
  | ok (i : Instr)
  | err (e : DecodeError)
deriving DecidableEq, Repr

/-- The state after an operation that may have failed: unchanged unless it answered a next state (R81). -/
def stateAfter (s : State) : Outcome → State
  | .next t => t
  | .fault _ => s
  | .refused _ => s

/-- The response of a `cycle` at a state: what the decode at IP gives (R80, R81). -/
def State.response (s : State) : Response :=
  match decode s.mem s.ip with
  | .ok i _ => .ok i
  | .error e => .err e

/-- `cycle()`, state and response (R80, R81). -/
def cycle (s : State) : State × Response := (stateAfter s (step s), s.response)

/-- `run_cycle()` of the Machine composition root: exactly one `cycle()` of the core it owns (R85). -/
def runCycle (s : State) : State × Response := cycle s

/-- `execute(instr)` called by the host: the effects of the instruction, no fetch, no advance of IP (R82, D25). -/
def execute (i : Instr) (s : State) : State := stateAfter s (exec i s)

/-- What `snapshot()` returns (R34, R86). -/
structure Snapshot where
  a : Word
  b : Word
  x : Word
  y : Word
  ip : Word
  flags : FlagSet
  mem : Memory
  next : Option Instr
deriving DecidableEq, Repr

/-- `snapshot()`: every register, FLAGS, all of memory, and the instruction at IP or none (R86). -/
def State.snapshot (s : State) : Snapshot where
  a := s.a
  b := s.b
  x := s.x
  y := s.y
  ip := s.ip
  flags := s.flags
  mem := s.mem
  next := (decode s.mem s.ip).instr?

/-- The operations a host may call, one at a time (R135, D14: log entry 15). -/
inductive Call where
  | cycle
  | execute (i : Instr)
  | snapshot
deriving DecidableEq, Repr

/-- The state after one call (R14, R31). -/
def Call.apply (s : State) : Call → State
  | .cycle => (Machine.cycle s).1
  | .execute i => Machine.execute i s
  | .snapshot => s

/-- The state after a sequence of calls, each made after the one before has returned (R135). -/
def runCalls (s : State) (cs : List Call) : State := cs.foldl Call.apply s

/-- How a host's run of a program ended. -/
inductive RunEnd where
  /-- The host stopped after a cycle that returned Ok(Halt), in this state (R84). -/
  | halted (s : State)
  /-- A cycle returned this decode error, with the state as it was before the cycle (R81). -/
  | error (s : State) (e : DecodeError)
  /-- The bound on the number of cycles was reached first, in this state. -/
  | running (s : State)
deriving DecidableEq, Repr

/-- A host that cycles until HALT, a decode error, or a bound on the number of cycles (R84, D15, D16). -/
def runToHalt : Nat → State → RunEnd
  | 0, s => .running s
  | k + 1, s =>
    match s.response with
    | .err e => .error s e
    | .ok .halt => .halted (stateAfter s (step s))
    | .ok _ => runToHalt k (stateAfter s (step s))

end Sys2Proof.Machine
end

