-- ==== Sys2Proof/Safety.lean ====
section
/-! DEFINITION. The vocabulary claims are stated in: what a safe run is, and what an instruction may change. -/

namespace Sys2Proof.Machine

/-- The invariant of the machine: the memory array is in its canonical form. -/
def State.Inv (s : State) : Prop := s.mem.wf = true

/-- The next k cycles raise no decode error. A run that meets one is never a completed run (D16). -/
def SafeFor : Nat → State → Prop
  | 0, _ => True
  | k + 1, s => ∃ t, step s = .next t ∧ SafeFor k t

/-- The bytes stand in memory at consecutive addresses from p, each wrapped by itself (R60). -/
def Memory.Holds (m : Memory) (p : Word) (bs : List Byte) : Prop :=
  ∀ k (h : k < bs.length), m.byteAt (byteAddr p k) = bs[k]

/-- The address is none of the n addresses from `a`, as byte positions of the array (R41). -/
def Memory.Outside (m : Memory) (a : Word) (n : Nat) (q : Word) : Prop :=
  ∀ k, k < n → m.phys q ≠ m.phys (byteAddr a k)

/-- Every byte of memory reads as before, and MEM_SIZE is the same. -/
def SameMemory (s t : State) : Prop :=
  t.mem.size = s.mem.size ∧ ∀ q, t.mem.byteAt q = s.mem.byteAt q

/-- Every general register but the named one holds what it held. -/
def SameGprsExcept (dst : Reg) (s t : State) : Prop :=
  ∀ r, r ≠ dst → t.reg (.gpr r) = s.reg (.gpr r)

/-- Every general register holds what it held. -/
def SameGprs (s t : State) : Prop := ∀ r, t.reg (.gpr r) = s.reg (.gpr r)

/-- IP and FLAGS hold what they held (R82, R100). -/
def SameIpFlags (s t : State) : Prop := t.ip = s.ip ∧ t.flags = s.flags

/-- The n bytes at `addr` become bytes 0 to n-1 of v, low byte first, and every byte outside them reads as
before (R44). -/
def Stores (s t : State) (addr : Word) (n : Nat) (v : Word) : Prop :=
  t.mem.size = s.mem.size ∧
  (∀ k, k < n → t.mem.byteAt (byteAddr addr k) = byteOf v k) ∧
  ∀ q, s.mem.Outside addr n q → t.mem.byteAt q = s.mem.byteAt q

/-- Two memory arrays with the same contents: the same MEM_SIZE and the same byte at every address. -/
def Memory.SameContents (m n : Memory) : Prop := m.size = n.size ∧ ∀ q, m.byteAt q = n.byteAt q

/-- Two states that a program cannot tell apart: equal but for how their memory arrays are listed. -/
def State.SameContents (s t : State) : Prop :=
  s.a = t.a ∧ s.b = t.b ∧ s.x = t.x ∧ s.y = t.y ∧ s.ip = t.ip ∧ s.flags = t.flags ∧
    s.mem.SameContents t.mem

/-- The operand width an instruction names: none for HALT and MOV.RR (R63). -/
def instrWidth? : Instr → Option Width
  | .halt | .movRR _ _ => none
  | .movRM8 _ _ | .movMR8 _ _ | .movMM8 _ _ => some .w8
  | .movRM16 _ _ | .movMR16 _ _ | .movMM16 _ _ => some .w16
  | .movRM32 _ _ | .movMR32 _ _ | .movMM32 _ _ => some .w32

/-- The three reads a cursor offers (R49, R50). -/
inductive CursorRead where
  | next8
  | next16
  | next32
deriving DecidableEq, Repr

/-- The bytes a read consumes (R51). -/
def CursorRead.bytes : CursorRead → Nat
  | .next8 => 1
  | .next16 => 2
  | .next32 => 4

/-- One read: its bytes, lowest address first, and the cursor after it. -/
def CursorRead.run (m : Memory) (c : Cursor) : CursorRead → List Byte × Cursor
  | .next8 => ([(c.next8 m).1], (c.next8 m).2)
  | .next16 => ([(c.next16 m).1.extractLsb' 0 8, (c.next16 m).1.extractLsb' 8 8], (c.next16 m).2)
  | .next32 => (addrBytes (c.next32 m).1, (c.next32 m).2)

/-- A sequence of reads: all their bytes in order, and the cursor after the last. -/
def runReads (m : Memory) : Cursor → List CursorRead → List Byte × Cursor
  | c, [] => ([], c)
  | c, r :: rs => ((r.run m c).1 ++ (runReads m (r.run m c).2 rs).1, (runReads m (r.run m c).2 rs).2)

/-- The state after k further cycles. -/
def afterCycles (s : State) (k : Nat) : State := runCalls s (List.replicate k .cycle)

/-- A step's outcome with a function applied to the next state. -/
def mapNext (f : State → State) : Outcome → Outcome
  | .next t => .next (f t)
  | .fault r => .fault r
  | .refused r => .refused r

end Sys2Proof.Machine
end

