-- ==== Sys2Proof/Certificates/Slice0/Obligations.lean ====
section
/-! DEFINITION. The statements of this model, from the spec's numbered rules. Every one speaks of every state,
memory array, MEM_SIZE, address and operand, unless it says otherwise; where one needs the canonical form of
the memory array, that form is an invariant stated here as well. -/

open Sys2Proof Sys2Proof.Machine

/-! ## Encoding and decoding -/

/-- Words written out from the spec's encodings decode to the instructions they stand for: one of each
family, a width code 3, the two errors, and an instruction that straddles the end of a 16-byte memory
(95_test_vectors.md W1, V-DEC-1, -2, -8, -12, -16, -18, -23, -28). -/
def Obligations.WrittenOutWordsDecode : Prop :=
  let at0 (bs : List Byte) : DecodeResult :=
    decode ((Memory.empty Config.defaultMemSize).placeBytes 0#32 bs) 0#32
  at0 [0x00#8] = .ok .halt 1#32 ∧
  at0 [0x01#8, 0x00#8, 0x00#8, 0x01#8] = .ok (.movRR .A .B) 4#32 ∧
  at0 [0x01#8, 0x40#8, 0x02#8, 0x78#8, 0x56#8, 0x34#8, 0x12#8] = .ok (.movRM8 .X 0x12345678#32) 7#32 ∧
  at0 [0x01#8, 0x7F#8, 0x00#8, 0x10#8, 0x00#8, 0x00#8, 0x00#8] = .ok (.movRM32 .A 0x10#32) 7#32 ∧
  at0 [0x01#8, 0x80#8, 0xEF#8, 0xBE#8, 0xAD#8, 0xDE#8, 0x03#8] = .ok (.movMR8 0xDEADBEEF#32 .Y) 7#32 ∧
  at0 [0x01#8, 0xC0#8, 0x01#8, 0x00#8, 0x00#8, 0x00#8, 0x02#8, 0x00#8, 0x00#8, 0x00#8]
    = .ok (.movMM8 0x1#32 0x2#32) 10#32 ∧
  at0 [0x02#8] = .error (.invalidGroup 0x02#8) ∧
  at0 [0x01#8, 0x00#8, 0x00#8, 0xFF#8] = .error (.invalidRegisterId .dst 0xFF#8) ∧
  decode ((Memory.empty ⟨2⟩).placeBytes 14#32 [0x01#8, 0xA0#8, 0x05#8, 0x00#8, 0x00#8, 0x00#8, 0x02#8]) 0xFFFFFFFE#32
    = .ok (.movMR32 0x5#32 .X) 7#32

/-- Decode of encode: wherever the bytes of an instruction stand, with any values of the ignored bits, the
decoder reads that instruction and its length. That the ignored bits are ignored is partly the spec's own
decision D12 (log entry 7). -/
def Obligations.EncodedInstructionDecodesToItself : Prop :=
  ∀ (m : Memory) (p : Word) (g : IgnoredBits) (i : Instr),
    m.Holds p (encodeWith g i) → decode m p = .ok i (BitVec.ofNat 32 i.length)

/-- The other direction: what the decoder accepts is, byte for byte, an encoding of the instruction it
answers, for some values of the ignored bits, and delta is its length (log entry 7). -/
def Obligations.DecodedBytesAreAnEncoding : Prop :=
  ∀ (m : Memory) (p : Word) (i : Instr) (d : Word), decode m p = .ok i d →
    d = BitVec.ofNat 32 i.length ∧ ∃ g, m.Holds p (encodeWith g i)

/-- A decode fails exactly on the illegal encodings, with the stated kind and payload. In shape 0 the source
id is checked before the destination id by the spec's own decision D8 (log entry 8). -/
def Obligations.DecodeErrorsAreTheIllegalEncodings : Prop :=
  ∀ (m : Memory) (p : Word) (e : DecodeError), decode m p = .error e ↔
    (m.instrByte p 0 ≠ 0x00#8 ∧ m.instrByte p 0 ≠ 0x01#8 ∧ e = .invalidGroup (m.instrByte p 0)) ∨
    (m.instrByte p 0 = 0x01#8 ∧ (m.instrByte p 1).extractLsb' 6 2 = 0#2 ∧
      3 < (m.instrByte p 2).toNat ∧ e = .invalidRegisterId .src (m.instrByte p 2)) ∨
    (m.instrByte p 0 = 0x01#8 ∧ (m.instrByte p 1).extractLsb' 6 2 = 0#2 ∧
      (m.instrByte p 2).toNat ≤ 3 ∧ 3 < (m.instrByte p 3).toNat ∧
      e = .invalidRegisterId .dst (m.instrByte p 3)) ∨
    (m.instrByte p 0 = 0x01#8 ∧ (m.instrByte p 1).extractLsb' 6 2 = 1#2 ∧
      3 < (m.instrByte p 2).toNat ∧ e = .invalidRegisterId .src (m.instrByte p 2)) ∨
    (m.instrByte p 0 = 0x01#8 ∧ (m.instrByte p 1).extractLsb' 6 2 = 2#2 ∧
      3 < (m.instrByte p 6).toNat ∧ e = .invalidRegisterId .dst (m.instrByte p 6))

/-- R61: the group byte is compared whole. `0x00` is HALT of one byte; `0x01` goes to the Move sub-decoder
and gives neither HALT nor an InvalidGroup error; every other value is an InvalidGroup error. -/
def Obligations.GroupByteSelectsHaltMoveOrError : Prop :=
  ∀ (m : Memory) (p : Word),
    (m.instrByte p 0 = 0x00#8 → decode m p = .ok .halt 1#32) ∧
    (m.instrByte p 0 = 0x01#8 →
      decode m p = decodeMove m ((Cursor.start m p).next8 m).2 ∧
      (∀ d, decode m p ≠ .ok .halt d) ∧ ∀ v, decode m p ≠ .error (.invalidGroup v)) ∧
    (2 ≤ (m.instrByte p 0).toNat → decode m p = .error (.invalidGroup (m.instrByte p 0)))

/-- R63: the width code of shapes 1 to 3 selects 8, 16, 32 or 32 bits; an encoding with code 3 decodes
exactly as the one with code 2; and in shape 0 the code is ignored. -/
def Obligations.WidthCodeSelectsTheWidth : Prop :=
  (∀ (m : Memory) (p : Word) (i : Instr) (d : Word),
    m.instrByte p 0 = 0x01#8 → (m.instrByte p 1).extractLsb' 6 2 ≠ 0#2 → decode m p = .ok i d →
      ((m.instrByte p 1).extractLsb' 4 2 = 0#2 → instrWidth? i = some .w8) ∧
      ((m.instrByte p 1).extractLsb' 4 2 = 1#2 → instrWidth? i = some .w16) ∧
      ((m.instrByte p 1).extractLsb' 4 2 = 2#2 → instrWidth? i = some .w32) ∧
      ((m.instrByte p 1).extractLsb' 4 2 = 3#2 → instrWidth? i = some .w32)) ∧
  (∀ (m n : Memory) (p : Word) (ss v w : BitVec 2) (low : BitVec 4),
    m.instrByte p 0 = 0x01#8 → m.instrByte p 1 = moveGroup ss v low → n.instrByte p 1 = moveGroup ss w low →
    (∀ j, j < 10 → j ≠ 1 → m.instrByte p j = n.instrByte p j) →
    (v = 2#2 ∧ w = 3#2) ∨ ss = 0#2 → decode m p = decode n p)

/-- Bits 3:0 of the move-group byte are ignored: two Move encodings that differ there alone decode alike,
errors included. The spec's own decision D12 (log entry 7). -/
def Obligations.MoveGroupLowBitsAreIgnored : Prop :=
  ∀ (m n : Memory) (p : Word) (ss ww : BitVec 2) (low low' : BitVec 4),
    m.instrByte p 0 = 0x01#8 → m.instrByte p 1 = moveGroup ss ww low → n.instrByte p 1 = moveGroup ss ww low' →
    (∀ j, j < 10 → j ≠ 1 → m.instrByte p j = n.instrByte p j) → decode m p = decode n p

/-- R65: a register-id byte is compared whole; 0 to 3 name A, B, X, Y, and any other value is an
InvalidRegisterId error that names the operand and the value. (Where both ids of shape 0 are invalid, this
says that one of the two is reported; which one is decision D8, stated elsewhere.) -/
def Obligations.RegisterIdByteIsComparedWhole : Prop :=
  (regId .A = 0x00#8 ∧ regId .B = 0x01#8 ∧ regId .X = 0x02#8 ∧ regId .Y = 0x03#8) ∧
  ∀ (m : Memory) (p : Word), m.instrByte p 0 = 0x01#8 →
    ((m.instrByte p 1).extractLsb' 6 2 = 0#2 →
      (∀ src dst, m.instrByte p 2 = regId src → m.instrByte p 3 = regId dst →
        decode m p = .ok (.movRR src dst) 4#32) ∧
      (3 < (m.instrByte p 2).toNat → (m.instrByte p 3).toNat ≤ 3 →
        decode m p = .error (.invalidRegisterId .src (m.instrByte p 2))) ∧
      ((m.instrByte p 2).toNat ≤ 3 → 3 < (m.instrByte p 3).toNat →
        decode m p = .error (.invalidRegisterId .dst (m.instrByte p 3))) ∧
      (3 < (m.instrByte p 2).toNat → 3 < (m.instrByte p 3).toNat →
        decode m p = .error (.invalidRegisterId .src (m.instrByte p 2)) ∨
        decode m p = .error (.invalidRegisterId .dst (m.instrByte p 3)))) ∧
    ((m.instrByte p 1).extractLsb' 6 2 = 1#2 →
      (∀ src, m.instrByte p 2 = regId src → ∃ w addr, decode m p = .ok (mkRegToMem w src addr) 7#32) ∧
      (3 < (m.instrByte p 2).toNat → decode m p = .error (.invalidRegisterId .src (m.instrByte p 2)))) ∧
    ((m.instrByte p 1).extractLsb' 6 2 = 2#2 →
      (∀ dst, m.instrByte p 6 = regId dst → ∃ w addr, decode m p = .ok (mkMemToReg w addr dst) 7#32) ∧
      (3 < (m.instrByte p 6).toNat → decode m p = .error (.invalidRegisterId .dst (m.instrByte p 6))))

/-- The length of an instruction is told from byte 0 alone for HALT and from bits 7:6 of byte 1 for Move. -/
def Obligations.LengthFollowsFromTheFirstTwoBytes : Prop :=
  ∀ (m : Memory) (p : Word) (i : Instr) (d : Word), decode m p = .ok i d →
    d = if m.instrByte p 0 = 0x00#8 then 1#32
        else if (m.instrByte p 1).extractLsb' 6 2 = 0#2 then 4#32
        else if (m.instrByte p 1).extractLsb' 6 2 = 3#2 then 10#32
        else 7#32

/-- The opcode table: exactly one row selects any two first bytes whose group byte is `0x00` or `0x01`, none
selects any other, and the row that selects a decoded instruction's bytes gives its name and its delta. -/
def Obligations.OpcodeTableAgreesWithTheDecoder : Prop :=
  (∀ b0 b1 : Byte, (opcodeTable.filter (fun r => r.selects (opc16 b0 b1))).length =
    if b0 = 0x00#8 ∨ b0 = 0x01#8 then 1 else 0) ∧
  ∀ (m : Memory) (p : Word) (i : Instr) (d : Word), decode m p = .ok i d →
    ∀ r ∈ opcodeTable, r.selects (opc16 (m.instrByte p 0) (m.instrByte p 1)) = true →
      r.mnemonic = i.mnemonic ∧ d = BitVec.ofNat 32 r.length

/-- The decoder accepts exactly the legal encodings, as the independent check on bytes lists them. -/
def Obligations.DecoderAcceptsExactlyTheLegalEncodings : Prop :=
  ∀ (m : Memory) (p : Word), (∃ i d, decode m p = .ok i d) ↔ ∃ bs, encodingWf bs = true ∧ m.Holds p bs

/-- Start addresses with the same physical index decode alike: the fetch reduces IP modulo MEM_SIZE. -/
def Obligations.DecodeDependsOnIpModuloMemSize : Prop :=
  ∀ (m : Memory) (p q : Word), p.toNat % m.size.bytes = q.toNat % m.size.bytes → decode m p = decode m q

/-! ## The cursor -/

/-- R49, R50: `next8` wraps an index that has left the array to 0, reads one byte and advances by 1, and the
check never fires for a cursor that was created at an address and has been read from; `next16` and `next32`
read 2 and 4 bytes little-endian, each byte wrapped individually, and advance by 2 and 4. -/
def Obligations.CursorReadsWrapEveryByte : Prop :=
  ∀ (m : Memory) (p : Word) (c : Cursor),
    Cursor.start m p = { index := p.toNat % m.size.bytes, travelled := 0 } ∧
    (Cursor.start m p).index < m.size.bytes ∧
    (c.index < m.size.bytes → c.next8 m =
      (m.get c.index, { index := (c.index + 1) % m.size.bytes, travelled := c.travelled + 1 })) ∧
    (m.size.bytes ≤ c.index → c.next8 m = (m.get 0, { index := 1, travelled := c.travelled + 1 })) ∧
    c.next16 m = (m.get ((c.index + 1) % m.size.bytes) ++ m.get ((c.index + 0) % m.size.bytes),
      { index := (c.index + 2) % m.size.bytes, travelled := c.travelled + 2 }) ∧
    c.next32 m = (m.get ((c.index + 3) % m.size.bytes) ++ m.get ((c.index + 2) % m.size.bytes) ++
        m.get ((c.index + 1) % m.size.bytes) ++ m.get ((c.index + 0) % m.size.bytes),
      { index := (c.index + 4) % m.size.bytes, travelled := c.travelled + 4 }) ∧
    (c.next8 m).2.index < m.size.bytes ∧ (c.next16 m).2.index < m.size.bytes ∧
    (c.next32 m).2.index < m.size.bytes

/-- After any sequence of reads from a cursor created at p, `travelled` is the sum of their sizes and byte j
of all that was read is the byte of memory at `p +32 j`; the next byte read is the one at `p +32 travelled`. -/
def Obligations.CursorStreamIsMemoryFromItsStart : Prop :=
  ∀ (m : Memory) (p : Word) (rs : List CursorRead),
    let out := runReads m (Cursor.start m p) rs
    out.2.travelled = (rs.map CursorRead.bytes).sum ∧ out.1.length = out.2.travelled ∧
    (∀ j (h : j < out.1.length), out.1[j] = m.byteAt (byteAddr p j)) ∧
    (out.2.next8 m).1 = m.byteAt (byteAddr p out.2.travelled)

/-! ## Memory -/

/-- R43: `MemRead` assembles n bytes at n consecutive addresses, each wrapped by itself, low byte first. It is
a function of memory and changes no state. -/
def Obligations.MemReadAssemblesLowByteFirst : Prop :=
  ∀ (m : Memory) (a : Word),
    let byte (k : Nat) : Byte := m.get ((a + BitVec.ofNat 32 k).toNat % m.size.bytes)
    m.read a 1 = (byte 0).setWidth 32 ∧
    m.read a 2 = (byte 1 ++ byte 0).setWidth 32 ∧
    m.read a 4 = byte 3 ++ byte 2 ++ byte 1 ++ byte 0

/-- `MemWrite` writes the low 8n bits of v, the least significant byte at `addr`, each byte wrapped by itself,
and changes no other byte of the array and not its size. The bytes are written in ascending order by the
spec's own decision D10, which is not observable (log entry 11). -/
def Obligations.MemWriteChangesExactlyItsBytes : Prop :=
  ∀ (m : Memory) (a v : Word) (w : Width),
    (m.write a v (widthBytes w)).size = m.size ∧
    (∀ k, k < widthBytes w →
      (m.write a v (widthBytes w)).get ((a + BitVec.ofNat 32 k).toNat % m.size.bytes) = v.extractLsb' (8 * k) 8) ∧
    ∀ i, (∀ k, k < widthBytes w → i ≠ (a + BitVec.ofNat 32 k).toNat % m.size.bytes) →
      (m.write a v (widthBytes w)).get i = m.get i

/-- After a 4-byte write every narrower read at and above its address sees the little-endian bytes. -/
def Obligations.MixedWidthReadsSeeTheWrittenBytes : Prop :=
  ∀ (m : Memory) (a v : Word),
    let t := m.write a v 4
    t.read a 1 = (v.extractLsb' 0 8).setWidth 32 ∧
    t.read (a + 1#32) 1 = (v.extractLsb' 8 8).setWidth 32 ∧
    t.read a 2 = (v.extractLsb' 0 16).setWidth 32 ∧
    t.read (a + 2#32) 2 = (v.extractLsb' 16 16).setWidth 32 ∧
    t.read (a + 1#32) 2 = (v.extractLsb' 8 16).setWidth 32 ∧
    t.read a 4 = v

/-- Wrapping at 2^32 and wrapping at MEM_SIZE agree, so an access at any address is the access at its physical
index: reads answer the same and writes leave the same array. -/
def Obligations.AddressesWithOnePhysicalIndexAreOneLocation : Prop :=
  ∀ (m : Memory) (a b : Word),
    (∀ k, m.phys (a + BitVec.ofNat 32 k) = (m.phys a + k) % m.size.bytes) ∧
    (m.phys a = m.phys b → ∀ (w : Width) (v : Word),
      m.read a (widthBytes w) = m.read b (widthBytes w) ∧
      m.write a v (widthBytes w) = m.write b v (widthBytes w))

/-- Two arrays in canonical form with the same MEM_SIZE and the same byte at every address are the same data:
the model's representation of M loses nothing and adds nothing (log entry 6). -/
def Obligations.CanonicalMemoriesWithEqualBytesAreEqual : Prop :=
  ∀ m n : Memory, m.wf = true → n.wf = true → m.SameContents n → m = n

/-! ## Registers and flags -/

/-- R22, R25: the width-qualified setter, for A, B, X, Y and IP, is a masked merge that keeps the bits above
its width, uses only the bits of v below it, and changes no other register, flag or byte of memory. -/
def Obligations.RegisterSetterIsAMaskedMerge : Prop :=
  ∀ (s : State) (r : RegName) (v : Word),
    (s.setReg r .w8 v).reg r = (s.reg r &&& 0xFFFFFF00#32) ||| (v &&& 0x000000FF#32) ∧
    (s.setReg r .w16 v).reg r = (s.reg r &&& 0xFFFF0000#32) ||| (v &&& 0x0000FFFF#32) ∧
    (s.setReg r .w32 v).reg r = v ∧
    ∀ w, (∀ q, q ≠ r → (s.setReg r w v).reg q = s.reg q) ∧
      (s.setReg r w v).flags = s.flags ∧ (s.setReg r w v).mem = s.mem ∧
      ∀ v', (∀ i, i < 8 * widthBytes w → v.getLsbD i = v'.getLsbD i) → s.setReg r w v = s.setReg r w v'

/-- The operations of the flags container, bit by bit, at every width: the spec's own decision D5 (log entry
4). None is reachable from an instruction. -/
def Obligations.FlagsContainerOperationsBitByBit : Prop :=
  ∀ (f : FlagSet) (mask : BitVec f.width),
    (f.contains mask = true ↔ ∀ i, i < f.width → mask.getLsbD i = true → f.value.getLsbD i = true) ∧
    (f.set mask).width = f.width ∧ (f.clear mask).width = f.width ∧
    (f.andAssign mask).width = f.width ∧ (f.xorAssign mask).width = f.width ∧
    ∀ i, i < f.width →
      (f.set mask).value.getLsbD i = (f.value.getLsbD i || mask.getLsbD i) ∧
      (f.clear mask).value.getLsbD i = (f.value.getLsbD i && !mask.getLsbD i) ∧
      (f.andAssign mask).value.getLsbD i = (f.value.getLsbD i && mask.getLsbD i) ∧
      (f.xorAssign mask).value.getLsbD i = (f.value.getLsbD i ^^ mask.getLsbD i)

/-! ## The instructions: each completes, with its result and its frame -/

/-- R83: `execute(Halt)` changes nothing; the byte `0x00`, and no other encoding, is HALT, of length 1; and a
cycle that decodes it advances IP by 1, with wrap-around, and changes nothing else: the core does not stop. -/
def Obligations.HaltHasNoEffectButTheAdvanceOfIp : Prop :=
  (∀ s : State, exec .halt s = .next s) ∧
  (∀ (m : Memory) (p d : Word), decode m p = .ok .halt d → m.byteAt p = 0x00#8 ∧ d = 1#32) ∧
  ∀ s : State, s.mem.byteAt s.ip = 0x00#8 →
    decode s.mem s.ip = .ok .halt 1#32 ∧ step s = .next { s with ip := s.ip + 1#32 }

/-- MOV.RR completes in every state: the destination gets all 32 bits of the source; nothing else changes. -/
def Obligations.MovRRCopiesTheWholeRegister : Prop :=
  ∀ (src dst : Reg) (s : State), ∃ t, exec (.movRR src dst) s = .next t ∧
    t.reg (.gpr dst) = s.reg (.gpr src) ∧
    SameGprsExcept dst s t ∧ SameIpFlags s t ∧ SameMemory s t

/-- MOV.RM8 completes in every state: bits 7:0 of the source at `addr`; nothing else changes. -/
def Obligations.MovRM8StoresOneByte : Prop :=
  ∀ (src : Reg) (addr : Word) (s : State), ∃ t, exec (.movRM8 src addr) s = .next t ∧
    Stores s t addr 1 (s.reg (.gpr src)) ∧ SameGprs s t ∧ SameIpFlags s t

/-- MOV.RM16 completes in every state: bits 15:0 of the source at `addr` and `addr +32 1`, low byte first;
nothing else changes. -/
def Obligations.MovRM16StoresTwoBytes : Prop :=
  ∀ (src : Reg) (addr : Word) (s : State), ∃ t, exec (.movRM16 src addr) s = .next t ∧
    Stores s t addr 2 (s.reg (.gpr src)) ∧ SameGprs s t ∧ SameIpFlags s t

/-- MOV.RM32 completes in every state: the source at `addr` to `addr +32 3`, low byte first; nothing else
changes. -/
def Obligations.MovRM32StoresFourBytes : Prop :=
  ∀ (src : Reg) (addr : Word) (s : State), ∃ t, exec (.movRM32 src addr) s = .next t ∧
    Stores s t addr 4 (s.reg (.gpr src)) ∧ SameGprs s t ∧ SameIpFlags s t

/-- MOV.MR8 completes in every state: the byte at `addr` in bits 7:0 of the destination, whose bits 31:8 stay;
nothing else changes. -/
def Obligations.MovMR8MergesOneByte : Prop :=
  ∀ (addr : Word) (dst : Reg) (s : State), ∃ t, exec (.movMR8 addr dst) s = .next t ∧
    t.reg (.gpr dst) = (s.reg (.gpr dst)).extractLsb' 8 24 ++ s.mem.byteAt addr ∧
    SameGprsExcept dst s t ∧ SameIpFlags s t ∧ SameMemory s t

/-- MOV.MR16 completes in every state: the bytes at `addr` and `addr +32 1`, low byte first, in bits 15:0 of
the destination, whose bits 31:16 stay; nothing else changes. -/
def Obligations.MovMR16MergesTwoBytes : Prop :=
  ∀ (addr : Word) (dst : Reg) (s : State), ∃ t, exec (.movMR16 addr dst) s = .next t ∧
    t.reg (.gpr dst) = (s.reg (.gpr dst)).extractLsb' 16 16 ++
      (s.mem.byteAt (addr + 1#32) ++ s.mem.byteAt addr) ∧
    SameGprsExcept dst s t ∧ SameIpFlags s t ∧ SameMemory s t

/-- MOV.MR32 completes in every state: the four bytes from `addr`, low byte first, replace the whole
destination; nothing else changes. -/
def Obligations.MovMR32LoadsFourBytes : Prop :=
  ∀ (addr : Word) (dst : Reg) (s : State), ∃ t, exec (.movMR32 addr dst) s = .next t ∧
    t.reg (.gpr dst) = s.mem.byteAt (addr + 3#32) ++ s.mem.byteAt (addr + 2#32) ++
      s.mem.byteAt (addr + 1#32) ++ s.mem.byteAt addr ∧
    SameGprsExcept dst s t ∧ SameIpFlags s t ∧ SameMemory s t

/-- MOV.MM8 completes in every state: the byte at the source address at the destination address; nothing else
changes, and where both addresses select one byte memory does not change at all. -/
def Obligations.MovMM8CopiesOneByte : Prop :=
  ∀ (a b : Word) (s : State), ∃ t, exec (.movMM8 a b) s = .next t ∧
    t.mem.byteAt b = s.mem.byteAt a ∧
    t.mem.size = s.mem.size ∧ (∀ q, s.mem.Outside b 1 q → t.mem.byteAt q = s.mem.byteAt q) ∧
    (s.mem.phys a = s.mem.phys b → SameMemory s t) ∧ SameGprs s t ∧ SameIpFlags s t

/-- MOV.MM16 completes in every state: the two bytes at the source address, as they were, at the destination
address; nothing else changes. That an overlapping copy takes the old source bytes is the spec's own decision
D11 (log entry 10). -/
def Obligations.MovMM16CopiesTheOldTwoBytes : Prop :=
  ∀ (a b : Word) (s : State), ∃ t, exec (.movMM16 a b) s = .next t ∧
    (∀ k, k < 2 → t.mem.byteAt (byteAddr b k) = s.mem.byteAt (byteAddr a k)) ∧
    t.mem.size = s.mem.size ∧ (∀ q, s.mem.Outside b 2 q → t.mem.byteAt q = s.mem.byteAt q) ∧
    SameGprs s t ∧ SameIpFlags s t

/-- MOV.MM32 completes in every state: the four bytes at the source address, as they were, at the destination
address; nothing else changes. That an overlapping copy takes the old source bytes is the spec's own decision
D11 (log entry 10). -/
def Obligations.MovMM32CopiesTheOldFourBytes : Prop :=
  ∀ (a b : Word) (s : State), ∃ t, exec (.movMM32 a b) s = .next t ∧
    (∀ k, k < 4 → t.mem.byteAt (byteAddr b k) = s.mem.byteAt (byteAddr a k)) ∧
    t.mem.size = s.mem.size ∧ (∀ q, s.mem.Outside b 4 q → t.mem.byteAt q = s.mem.byteAt q) ∧
    SameGprs s t ∧ SameIpFlags s t

/-- R82: `execute` has no failure outcome, and it neither reads nor writes IP or FLAGS: with other values in
them it does the same and leaves them as they are. Its effect per instruction is stated above. -/
def Obligations.ExecuteNeverFailsNorTouchesIpOrFlags : Prop :=
  ∀ (i : Instr) (s : State) (ip : Word) (f : FlagSet),
    (∃ t, exec i s = .next t ∧ SameIpFlags s t) ∧
    exec i { s with ip := ip, flags := f } = mapNext (fun t => { t with ip := ip, flags := f }) (exec i s)

/-! ## The cycle -/

/-- A cycle runs the decoded instruction: when the bytes at IP decode to i, the step is `exec` of i in the
state with IP advanced by its length, wrapping at 2^32; in particular when the bytes of i stand at IP, even
where they are overwritten by i itself. The response carries the instruction by the spec's own decision D15
(log entry 15), and `run_cycle` is one cycle. -/
def Obligations.StepRunsTheDecodedInstruction : Prop :=
  (∀ (s : State) (i : Instr) (d : Word), decode s.mem s.ip = .ok i d →
    step s = exec i { s with ip := s.ip + d } ∧
    cycle s = (execute i { s with ip := s.ip + d }, .ok i) ∧ runCycle s = cycle s) ∧
  ∀ (s : State) (g : IgnoredBits) (i : Instr), s.mem.Holds s.ip (encodeWith g i) →
    step s = exec i { s with ip := s.ip + BitVec.ofNat 32 i.length }

/-- R81: a cycle whose decode fails returns the error and changes nothing, and every later cycle returns the
same error and changes nothing. -/
def Obligations.DecodeErrorChangesNothingAndRepeats : Prop :=
  ∀ (s : State) (e : DecodeError), decode s.mem s.ip = .error e →
    cycle s = (s, .err e) ∧
    ∀ k, afterCycles s k = s ∧ cycle (afterCycles s k) = (s, .err e)

/-- The only way a step stops is a decode error, as a fault that names it (the spec's own decision D16, log
entry 14): a step faults exactly where the decode at IP fails, and no step is refused. -/
def Obligations.StepFaultsExactlyOnDecodeErrors : Prop :=
  ∀ s : State,
    (∀ e, step s = .fault (.decodeError e) ↔ decode s.mem s.ip = .error e) ∧
    ((∃ t, step s = .next t) ↔ ∃ i d, decode s.mem s.ip = .ok i d) ∧
    ∀ r, step s ≠ .refused r

/-- Every completed cycle advances IP by the instruction's length, 1, 4, 7 or 10, wrapping at 2^32. -/
def Obligations.EveryStepAdvancesIpByTheLength : Prop :=
  ∀ s t : State, step s = .next t → ∃ i, (∃ d, decode s.mem s.ip = .ok i d) ∧
    t.ip = s.ip + BitVec.ofNat 32 i.length ∧ i.length ∈ [1, 4, 7, 10]

/-- Fetch is coherent with stores: an instruction that stores to the byte after itself completes, and the next
cycle fetches the stored byte, which is a HALT where it is `0x00` and an InvalidGroup error where it is above
`0x01`. -/
def Obligations.NextFetchSeesTheStoredByte : Prop :=
  ∀ (s : State) (src : Reg) (addr : Word), s.mem.Holds s.ip (encode (.movRM8 src addr)) →
    s.mem.phys addr = s.mem.phys (s.ip + 7#32) →
    ∃ t, step s = .next t ∧ t.ip = s.ip + 7#32 ∧
      t.mem.byteAt t.ip = (s.reg (.gpr src)).extractLsb' 0 8 ∧
      ((s.reg (.gpr src)).extractLsb' 0 8 = 0x00#8 → step t = .next { t with ip := t.ip + 1#32 }) ∧
      (1 < ((s.reg (.gpr src)).extractLsb' 0 8).toNat →
        step t = .fault (.decodeError (.invalidGroup ((s.reg (.gpr src)).extractLsb' 0 8))))

/-! ## Invariants and whole-machine rules -/

/-- Every step keeps the memory array in its canonical form, and so does every call the host may make. The form
is the model's own choice (log entry 6, DESIGN CHOICE): the spec leaves open how the array is held (R137). The
host's calls are those of the spec's own decisions D14 and D25 (log entry 15, DESIGN CHOICE). -/
def Obligations.EveryStepKeepsMemoryCanonical : Prop :=
  (∀ s t : State, s.Inv → step s = .next t → t.Inv) ∧
  ∀ (s : State) (c : Call), s.Inv → (c.apply s).Inv

/-- The canonical form holds at reset. Both are the model's choices: the all-zero contents at reset are log entry
5 (DESIGN CHOICE: the spec gives no reset value, its decision D6 names zero as a default), the form is log entry
6 (DESIGN CHOICE). -/
def Obligations.ResetMemoryIsCanonical : Prop := State.reset.Inv

/-- FLAGS keeps its initial value, and MEM_SIZE and FLAGS_WIDTH their values, through every sequence of
`cycle`, `execute` and `snapshot`, from every state. -/
def Obligations.FlagsAndSizesNeverChange : Prop :=
  ∀ (s : State) (cs : List Call),
    (runCalls s cs).flags = s.flags ∧ (runCalls s cs).mem.size = s.mem.size

/-- R27: no instruction reads, writes or sets FLAGS as a side effect: with another flags container every
instruction, and every cycle, does the same and leaves that container as it is, through any sequence of calls. -/
def Obligations.NoInstructionReadsOrWritesFlags : Prop :=
  (∀ (i : Instr) (s : State) (f : FlagSet),
    exec i { s with flags := f } = mapNext (fun t => { t with flags := f }) (exec i s)) ∧
  (∀ (i : Instr) (s t : State), exec i s = .next t → t.flags = s.flags) ∧
  (∀ (s : State) (f : FlagSet),
    step { s with flags := f } = mapNext (fun t => { t with flags := f }) (step s)) ∧
  ∀ (s : State) (f : FlagSet) (cs : List Call),
    runCalls { s with flags := f } cs = { runCalls s cs with flags := f }

/-- The state after reset is the spec's default INIT, all zero, at the default sizes. The spec gives no reset
value (R130) and names this default for a simulator: a DESIGN CHOICE of log entries 1, 2 and 5. -/
def Obligations.ResetIsTheAllZeroDefault : Prop :=
  (∀ r, State.reset.reg r = 0#32) ∧ State.reset.flags = { width := 32, bits := 0#32 } ∧
  State.reset.mem.size.bytes = 0x10000000 ∧ ∀ q, State.reset.mem.byteAt q = 0x00#8

/-- A core constructed with INIT holds INIT's registers, flags, size and image, its array is canonical, and
every canonical state is the state some INIT constructs: a claim over all canonical states is a claim over
every INIT. That an image lists the bytes that are not zero is the model's (log entry 6). -/
def Obligations.ConstructionHoldsInitAndReachesEveryState : Prop :=
  (∀ n : Init, let s := State.ofInit n
    s.a = n.a ∧ s.b = n.b ∧ s.x = n.x ∧ s.y = n.y ∧ s.ip = n.ip ∧ s.flags = n.flags ∧
    s.mem.size = n.size ∧ s.Inv ∧
    (∀ i, (∀ c ∈ n.image, c.1 % n.size.bytes ≠ i) → s.mem.get i = 0x00#8) ∧
    ∀ pre c post, n.image = pre ++ c :: post →
      (∀ d ∈ post, d.1 % n.size.bytes ≠ c.1 % n.size.bytes) → s.mem.get (c.1 % n.size.bytes) = c.2) ∧
  ∀ s : State, s.Inv → ∃ n, State.ofInit n = s

/-- R86: `snapshot` returns every register, FLAGS, all of memory and the instruction decoded at IP, or none
where the decode fails, and changes no state, so no later cycle. -/
def Obligations.SnapshotShowsTheStateAndTheNextInstruction : Prop :=
  ∀ s : State,
    (s.snapshot.a = s.a ∧ s.snapshot.b = s.b ∧ s.snapshot.x = s.x ∧ s.snapshot.y = s.y ∧
      s.snapshot.ip = s.ip ∧ s.snapshot.flags = s.flags ∧ s.snapshot.mem = s.mem) ∧
    (∀ i, s.snapshot.next = some i ↔ ∃ d, decode s.mem s.ip = .ok i d) ∧
    (s.snapshot.next = none ↔ ∃ e, decode s.mem s.ip = .error e) ∧
    Call.apply s .snapshot = s ∧ cycle (Call.apply s .snapshot) = cycle s

/-- How a program lies in the list of cells is not observable: states with the same registers, flags, MEM_SIZE
and byte at every address step alike, to states that again have the same contents (log entry 6). -/
def Obligations.StepsDependOnContentsAlone : Prop :=
  ∀ s t : State, s.SameContents t →
    (∀ s', step s = .next s' → ∃ t', step t = .next t' ∧ s'.SameContents t') ∧
    ∀ r, step s = .fault r → step t = .fault r

/-- A host's run to HALT ends one past a HALT byte it reached by cycling, with nothing changed by the HALT but
IP; a run that ends in an error ends in a state it reached by cycling, unchanged by the failing cycle. The
stop is the host's by the spec's own decision D15 (log entry 15). -/
def Obligations.RunToHaltEndsOnePastAHaltByte : Prop :=
  ∀ (n : Nat) (s t : State),
    (runToHalt n s = .halted t → ∃ k, k < n ∧ (afterCycles s k).mem.byteAt (afterCycles s k).ip = 0x00#8 ∧
      t = { afterCycles s k with ip := (afterCycles s k).ip + 1#32 }) ∧
    ∀ e, runToHalt n s = .error t e → ∃ k, k < n ∧ t = afterCycles s k ∧ decode t.mem t.ip = .error e

/-- A run is safe for k cycles exactly when each of the k responses is an executed instruction. That a decode
error is a fault of the step is the spec's own decision D16 (log entry 14, DESIGN CHOICE), and that a response
carries the executed instruction is its decision D15 (log entry 15, DESIGN CHOICE). -/
def Obligations.SafeRunsAreRunsWithoutDecodeErrors : Prop :=
  ∀ (k : Nat) (s : State), SafeFor k s ↔ ∀ j, j < k → ∃ i, (cycle (afterCycles s j)).2 = .ok i
end

