-- ==== Sys2Proof/Laws/Memory.lean ====
section
/-! SUPPORT. What the memory operations do, said once: a read after a write, the frame of a write, the
canonical form, and the byte view of multi-byte accesses. -/

namespace Sys2Proof

theorem MemSize.four_le_bytes (z : MemSize) : 4 ≤ z.bytes := by
  have : 2 ^ 2 ≤ 2 ^ (z.code.val + 2) := Nat.pow_le_pow_right (by decide) (by omega)
  simpa [MemSize.bytes] using this

theorem MemSize.bytes_pos (z : MemSize) : 0 < z.bytes := lt_of_lt_of_le (by decide) z.four_le_bytes

/-- MEM_SIZE divides 2^32, so wrapping at one agrees with wrapping at the other (R5, R41). -/
theorem MemSize.bytes_dvd (z : MemSize) : z.bytes ∣ 2 ^ 32 := pow_dvd_pow 2 (by omega)

end Sys2Proof

namespace Sys2Proof.Machine

/-! ## The list of cells -/

theorem cellsLookup_erase_self (cs : List Host.Cell) (i : Nat) :
    cellsLookup (cellsErase cs i) i = Memory.unlisted := by
  induction cs with
  | nil => rfl
  | cons c cs ih => by_cases h : c.1 = i <;> simp [cellsErase, cellsLookup, h, ih]

theorem cellsLookup_erase_ne (cs : List Host.Cell) {i j : Nat} (h : j ≠ i) :
    cellsLookup (cellsErase cs i) j = cellsLookup cs j := by
  induction cs with
  | nil => rfl
  | cons c cs ih =>
    by_cases hc : c.1 = i
    · simp [cellsErase, cellsLookup, hc, ih, h.symm]
    · by_cases hj : c.1 = j <;> simp [cellsErase, cellsLookup, hc, hj, ih, h]

theorem cellsLookup_insert_ne (cs : List Host.Cell) (c : Host.Cell) {j : Nat} (h : j ≠ c.1) :
    cellsLookup (cellsInsert cs c) j = cellsLookup cs j := by
  induction cs with
  | nil => simp [cellsInsert, cellsLookup, h.symm]
  | cons d ds ih =>
    by_cases hd : c.1 < d.1
    · simp [cellsInsert, cellsLookup, hd, h.symm]
    · simp only [cellsInsert, if_neg hd, cellsLookup, ih]

theorem cellsLookup_insert_erase (cs : List Host.Cell) (i : Nat) (b : Byte) :
    cellsLookup (cellsInsert (cellsErase cs i) (i, b)) i = b := by
  induction cs with
  | nil => simp [cellsErase, cellsInsert, cellsLookup]
  | cons c cs ih =>
    by_cases hc : c.1 = i
    · simpa [cellsErase, hc] using ih
    · by_cases hl : i < c.1 <;> simp [cellsErase, cellsInsert, cellsLookup, hc, hl, ih]

theorem mem_cellsErase {cs : List Host.Cell} {i : Nat} {d : Host.Cell} (h : d ∈ cellsErase cs i) :
    d ∈ cs ∧ d.1 ≠ i := by
  induction cs with
  | nil => simp [cellsErase] at h
  | cons c cs ih =>
    by_cases hc : c.1 = i
    · rw [cellsErase, if_pos hc] at h
      exact ⟨List.mem_cons_of_mem _ (ih h).1, (ih h).2⟩
    · rw [cellsErase, if_neg hc, List.mem_cons] at h
      rcases h with rfl | h
      · exact ⟨List.mem_cons_self, hc⟩
      · exact ⟨List.mem_cons_of_mem _ (ih h).1, (ih h).2⟩

theorem mem_cellsInsert {cs : List Host.Cell} {c d : Host.Cell} (h : d ∈ cellsInsert cs c) :
    d = c ∨ d ∈ cs := by
  induction cs with
  | nil => simpa [cellsInsert] using h
  | cons e es ih =>
    by_cases hl : c.1 < e.1
    · simpa [cellsInsert, hl] using h
    · rw [cellsInsert, if_neg hl, List.mem_cons] at h
      rcases h with rfl | h
      · exact .inr List.mem_cons_self
      · exact (ih h).imp_right (List.mem_cons_of_mem _)

theorem cellsRising_cons (c : Host.Cell) (cs : List Host.Cell) :
    cellsRising (c :: cs) = true ↔ (∀ d ∈ cs, c.1 < d.1) ∧ cellsRising cs = true := by
  simp [cellsRising]

theorem cellsRising_erase {cs : List Host.Cell} (h : cellsRising cs = true) (i : Nat) :
    cellsRising (cellsErase cs i) = true := by
  induction cs with
  | nil => rfl
  | cons c cs ih =>
    rw [cellsRising_cons] at h
    by_cases hc : c.1 = i
    · simpa [cellsErase, hc] using ih h.2
    · rw [cellsErase, if_neg hc, cellsRising_cons]
      exact ⟨fun d hd => h.1 d (mem_cellsErase hd).1, ih h.2⟩

theorem cellsRising_insert {cs : List Host.Cell} {c : Host.Cell} (h : cellsRising cs = true)
    (hc : ∀ d ∈ cs, d.1 ≠ c.1) : cellsRising (cellsInsert cs c) = true := by
  induction cs with
  | nil => rfl
  | cons e es ih =>
    have he := h
    rw [cellsRising_cons] at h
    have hne := hc e List.mem_cons_self
    by_cases hl : c.1 < e.1
    · rw [cellsInsert, if_pos hl, cellsRising_cons]
      refine ⟨fun d hd => ?_, he⟩
      rcases List.mem_cons.1 hd with rfl | hd
      · exact hl
      · exact hl.trans (h.1 d hd)
    · rw [cellsInsert, if_neg hl, cellsRising_cons]
      refine ⟨fun d hd => ?_, ih h.2 fun d hd => hc d (List.mem_cons_of_mem _ hd)⟩
      rcases mem_cellsInsert hd with rfl | hd
      · omega
      · exact h.1 d hd

/-! ## `M[i]` -/

@[simp] theorem Memory.set_size (m : Memory) (i : Nat) (b : Byte) : (m.set i b).size = m.size := by
  unfold Memory.set; split <;> rfl

theorem Memory.get_set_self (m : Memory) (i : Nat) (b : Byte) : (m.set i b).get i = b := by
  unfold Memory.set Memory.get
  split
  · next h => rw [h]; exact cellsLookup_erase_self _ _
  · exact cellsLookup_insert_erase _ _ _

theorem Memory.get_set_ne (m : Memory) {i j : Nat} (h : j ≠ i) (b : Byte) : (m.set i b).get j = m.get j := by
  unfold Memory.set Memory.get
  split
  · exact cellsLookup_erase_ne _ h
  · rw [cellsLookup_insert_ne _ _ (by simpa using h), cellsLookup_erase_ne _ h]

theorem Memory.wf_iff (m : Memory) : m.wf = true ↔
    cellsRising m.cells = true ∧ ∀ c ∈ m.cells, c.1 < m.size.bytes ∧ c.2 ≠ Memory.unlisted := by
  simp [Memory.wf]

theorem Memory.wf_empty (z : MemSize) : (Memory.empty z).wf = true := rfl

theorem Memory.wf_set {m : Memory} (h : m.wf = true) {i : Nat} (hi : i < m.size.bytes) (b : Byte) :
    (m.set i b).wf = true := by
  rw [Memory.wf_iff] at h ⊢
  unfold Memory.set
  split
  · exact ⟨cellsRising_erase h.1 i, fun c hc => h.2 c (mem_cellsErase hc).1⟩
  · next hb =>
    refine ⟨cellsRising_insert (cellsRising_erase h.1 i) fun d hd => (mem_cellsErase hd).2, fun c hc => ?_⟩
    rcases mem_cellsInsert hc with rfl | hc
    · exact ⟨hi, hb⟩
    · exact h.2 c (mem_cellsErase hc).1

/-! ## Addresses -/

theorem Memory.phys_lt (m : Memory) (a : Word) : m.phys a < m.size.bytes := Nat.mod_lt _ m.size.bytes_pos

/-- Adding to an address and reducing is adding to the physical index and reducing (R41). -/
theorem Memory.phys_byteAddr (m : Memory) (a : Word) (k : Nat) :
    m.phys (byteAddr a k) = (m.phys a + k) % m.size.bytes := by
  simp only [Memory.phys, byteAddr, BitVec.toNat_add, BitVec.toNat_ofNat]
  rw [Nat.add_mod_mod, Nat.mod_mod_of_dvd _ m.size.bytes_dvd, Nat.mod_add_mod]

@[simp] theorem byteAddr_zero (a : Word) : byteAddr a 0 = a := by simp [byteAddr]

theorem byteAddr_byteAddr (a : Word) (j k : Nat) : byteAddr (byteAddr a j) k = byteAddr a (j + k) := by
  simp [byteAddr, BitVec.ofNat_add, BitVec.add_assoc]

theorem byteAddr_congr (m : Memory) {a b : Word} (h : m.phys a = m.phys b) (k : Nat) :
    m.phys (byteAddr a k) = m.phys (byteAddr b k) := by
  rw [Memory.phys_byteAddr, Memory.phys_byteAddr, h]

/-- The at most four bytes of one access are distinct, because MEM_SIZE is at least 4 (R44). -/
theorem Memory.phys_byteAddr_inj (m : Memory) (a : Word) {j k : Nat} (hj : j < 4) (hk : k < 4)
    (h : m.phys (byteAddr a j) = m.phys (byteAddr a k)) : j = k := by
  have h4 := m.size.four_le_bytes
  have ha := m.phys_lt a
  rw [Memory.phys_byteAddr, Memory.phys_byteAddr] at h
  generalize m.phys a = p at h ha
  generalize m.size.bytes = z at h ha h4
  rcases Nat.lt_or_ge (p + j) z with h1 | h1 <;> rcases Nat.lt_or_ge (p + k) z with h2 | h2
  · rw [Nat.mod_eq_of_lt h1, Nat.mod_eq_of_lt h2] at h; omega
  · rw [Nat.mod_eq_of_lt h1, Nat.mod_eq_sub_mod h2, Nat.mod_eq_of_lt (by omega)] at h; omega
  · rw [Nat.mod_eq_of_lt h2, Nat.mod_eq_sub_mod h1, Nat.mod_eq_of_lt (by omega)] at h; omega
  · rw [Nat.mod_eq_sub_mod h1, Nat.mod_eq_sub_mod h2, Nat.mod_eq_of_lt (by omega),
      Nat.mod_eq_of_lt (by omega)] at h; omega

theorem Memory.byteAt_setByteAt_self (m : Memory) {a q : Word} (h : m.phys q = m.phys a) (b : Byte) :
    (m.setByteAt a b).byteAt q = b := by
  simp only [Memory.byteAt, Memory.setByteAt, Memory.phys, Memory.set_size] at h ⊢
  rw [h, Memory.get_set_self]

theorem Memory.byteAt_setByteAt_ne (m : Memory) {a q : Word} (h : m.phys q ≠ m.phys a) (b : Byte) :
    (m.setByteAt a b).byteAt q = m.byteAt q := by
  simp only [Memory.byteAt, Memory.setByteAt, Memory.phys, Memory.set_size] at h ⊢
  rw [Memory.get_set_ne _ h]

@[simp] theorem Memory.setByteAt_size (m : Memory) (a : Word) (b : Byte) : (m.setByteAt a b).size = m.size :=
  Memory.set_size ..

theorem Memory.wf_setByteAt {m : Memory} (h : m.wf = true) (a : Word) (b : Byte) :
    (m.setByteAt a b).wf = true := Memory.wf_set h (m.phys_lt a) b

/-! ## MemWrite -/

@[simp] theorem Memory.write_size (m : Memory) (a v : Word) (n : Nat) : (m.write a v n).size = m.size := by
  induction n with
  | zero => rfl
  | succ n ih => simpa [Memory.write] using ih

@[simp] theorem Memory.write_phys (m : Memory) (a v : Word) (n : Nat) (q : Word) :
    (m.write a v n).phys q = m.phys q := by simp [Memory.phys]

theorem Memory.wf_write {m : Memory} (h : m.wf = true) (a v : Word) (n : Nat) : (m.write a v n).wf = true := by
  induction n with
  | zero => exact h
  | succ n ih => exact Memory.wf_setByteAt ih _ _

theorem Memory.byteAt_write_outside (m : Memory) (a v : Word) (n : Nat) {q : Word}
    (h : ∀ k, k < n → m.phys q ≠ m.phys (byteAddr a k)) : (m.write a v n).byteAt q = m.byteAt q := by
  induction n with
  | zero => rfl
  | succ n ih =>
    rw [Memory.write, Memory.byteAt_setByteAt_ne _ (by simpa using h n (by omega)), ih fun k hk => h k (by omega)]

theorem Memory.byteAt_write_inside (m : Memory) (a v : Word) {n k : Nat} (hn : n ≤ 4) (hk : k < n) {q : Word}
    (h : m.phys q = m.phys (byteAddr a k)) : (m.write a v n).byteAt q = byteOf v k := by
  induction n with
  | zero => omega
  | succ n ih =>
    rw [Memory.write]
    by_cases hkn : k = n
    · subst hkn; exact Memory.byteAt_setByteAt_self _ (by simpa using h) _
    · rw [Memory.byteAt_setByteAt_ne, ih (by omega) (by omega)]
      rw [Memory.write_phys, Memory.write_phys, h]
      exact fun he => hkn (m.phys_byteAddr_inj a (by omega) (by omega) he)

/-! ## MemRead, and words as bytes -/

theorem getLsbD_byteOf (v : Word) (k i : Nat) :
    (byteOf v k).getLsbD i = (decide (i < 8) && v.getLsbD (8 * k + i)) := by
  simp [byteOf, BitVec.getLsbD_extractLsb']

theorem byteOf_or (v w : Word) (k : Nat) : byteOf (v ||| w) k = byteOf v k ||| byteOf w k := by
  simp [byteOf, BitVec.extractLsb'_or]

theorem byteOf_zero (k : Nat) : byteOf 0#32 k = 0#8 := by simp [byteOf]

/-- A byte placed in a word is that byte there, and zero elsewhere. -/
theorem byteOf_byteInWord (b : Byte) {j k : Nat} (hj : j < 4) :
    byteOf (byteInWord b j) k = if k = j then b else 0#8 := by
  apply BitVec.eq_of_getLsbD_eq
  intro i hi
  rw [getLsbD_byteOf]
  simp only [byteInWord, BitVec.getLsbD_shiftLeft, BitVec.getLsbD_setWidth]
  split
  · next h =>
    subst h
    have h1 : 8 * k + i < 32 := by omega
    have h2 : i < 32 := by omega
    simp [hi, h1, h2]
  · next h =>
    rcases Nat.lt_or_gt_of_ne h with h | h
    · have : 8 * k + i < 8 * j := by omega
      simp [this]
    · have : b.getLsbD (8 * k + i - 8 * j) = false := BitVec.getLsbD_of_ge _ _ (by omega)
      simp [this]

/-- A word is determined by its four bytes. -/
theorem word_ext {v w : Word} (h : ∀ k, k < 4 → byteOf v k = byteOf w k) : v = w := by
  apply BitVec.eq_of_getLsbD_eq
  intro i hi
  have hb := congrArg (fun b => b.getLsbD (i % 8)) (h (i / 8) (by omega))
  simp only [getLsbD_byteOf, Nat.div_add_mod] at hb
  simpa [Nat.mod_lt] using hb

/-- Byte k of what `MemRead` answers: the byte at `addr +32 k` below n, zero from n on (R43). -/
theorem byteOf_read (m : Memory) (a : Word) {n : Nat} (hn : n ≤ 4) (k : Nat) :
    byteOf (m.read a n) k = if k < n then m.byteAt (byteAddr a k) else 0#8 := by
  induction n with
  | zero => simp [Memory.read, byteOf_zero]
  | succ n ih =>
    rw [Memory.read, byteOf_or, ih (by omega), byteOf_byteInWord _ (by omega)]
    by_cases h1 : k = n
    · subst h1; simp
    · by_cases h2 : k < n
      · simp [h1, h2, Nat.lt_succ_of_lt h2]
      · have h3 : ¬ k < n + 1 := by omega
        simp [h1, h2, h3]

theorem read_congr {m n : Memory} {a b : Word} {l : Nat} (hl : l ≤ 4)
    (h : ∀ k, k < l → m.byteAt (byteAddr a k) = n.byteAt (byteAddr b k)) : m.read a l = n.read b l := by
  apply word_ext
  intro k _
  rw [byteOf_read _ _ hl, byteOf_read _ _ hl]
  split
  · next hk => exact h k hk
  · rfl

/-! ## Images and placed bytes -/

theorem Memory.wf_foldl_set (z : MemSize) (image : List Host.Cell) {m : Memory} (hm : m.wf = true)
    (hz : m.size = z) : (image.foldl (fun m c => m.set (c.1 % z.bytes) c.2) m).wf = true := by
  induction image generalizing m with
  | nil => exact hm
  | cons c cs ih =>
    refine ih (Memory.wf_set hm ?_ _) (by simpa using hz)
    rw [hz]; exact Nat.mod_lt _ z.bytes_pos

theorem Memory.wf_ofImage (z : MemSize) (image : List Host.Cell) : (Memory.ofImage z image).wf = true :=
  Memory.wf_foldl_set z image (Memory.wf_empty z) rfl

theorem Memory.placeBytes_size (m : Memory) (a : Word) (bs : List Byte) : (m.placeBytes a bs).size = m.size := by
  induction bs generalizing a with
  | nil => rfl
  | cons b bs ih => simpa [Memory.placeBytes] using ih _

theorem Memory.wf_placeBytes {m : Memory} (h : m.wf = true) (a : Word) (bs : List Byte) :
    (m.placeBytes a bs).wf = true := by
  induction bs generalizing a with
  | nil => exact h
  | cons b bs ih => exact Memory.wf_setByteAt (ih _) _ _

end Sys2Proof.Machine
end

