-- ==== Sys2Proof/Laws/Cursor.lean ====
section
/-! SUPPORT. What a cursor reads, as a stream of bytes from its start address (R51). -/

namespace Sys2Proof.Machine

/-- The cursor stands t bytes after start address p (R51). -/
def Cursor.At (m : Memory) (p : Word) (t : Nat) (c : Cursor) : Prop :=
  c.index = m.phys (byteAddr p t) ∧ c.travelled = t

theorem Cursor.at_start (m : Memory) (p : Word) : Cursor.At m p 0 (Cursor.start m p) := by
  simp [Cursor.At, Cursor.start]

theorem Memory.phys_add (m : Memory) (p : Word) (t n : Nat) :
    (m.phys (byteAddr p t) + n) % m.size.bytes = m.phys (byteAddr p (t + n)) := by
  rw [← byteAddr_byteAddr, Memory.phys_byteAddr m (byteAddr p t) n]

theorem Cursor.At.index_lt {m : Memory} {p : Word} {t : Nat} {c : Cursor} (h : Cursor.At m p t c) :
    c.index < m.size.bytes := h.1 ▸ m.phys_lt _

theorem Cursor.At.wrapped {m : Memory} {p : Word} {t : Nat} {c : Cursor} (h : Cursor.At m p t c) :
    c.wrapped m = c.index := if_neg (Nat.not_le.2 h.index_lt)

theorem Cursor.At.next8_fst {m : Memory} {p : Word} {t : Nat} {c : Cursor} (h : Cursor.At m p t c) :
    (c.next8 m).1 = m.byteAt (byteAddr p t) := by simp [Cursor.next8, h.wrapped, h.1, Memory.byteAt]

theorem Cursor.At.next8_snd {m : Memory} {p : Word} {t : Nat} {c : Cursor} (h : Cursor.At m p t c) :
    Cursor.At m p (t + 1) (c.next8 m).2 := by
  refine ⟨?_, by simp [Cursor.next8, h.2]⟩
  simp only [Cursor.next8, h.wrapped, h.1, Memory.phys_add]

theorem Cursor.At.advance {m : Memory} {p : Word} {t : Nat} {c : Cursor} (h : Cursor.At m p t c) (n : Nat) :
    Cursor.At m p (t + n) (c.advance m n) :=
  ⟨by simp only [Cursor.advance, h.1, Memory.phys_add], by simp [Cursor.advance, h.2]⟩

theorem Cursor.At.bytesLE {m : Memory} {p : Word} {t : Nat} {c : Cursor} (h : Cursor.At m p t c) (n : Nat) :
    Cursor.bytesLE m c.index n = m.read (byteAddr p t) n := by
  induction n with
  | zero => rfl
  | succ n ih => rw [Cursor.bytesLE, Memory.read, ih, h.1, Memory.phys_add, Memory.byteAt, byteAddr_byteAddr]

theorem Cursor.At.next32_fst {m : Memory} {p : Word} {t : Nat} {c : Cursor} (h : Cursor.At m p t c) :
    (c.next32 m).1 = m.read (byteAddr p t) 4 := h.bytesLE 4

theorem Cursor.At.next32_snd {m : Memory} {p : Word} {t : Nat} {c : Cursor} (h : Cursor.At m p t c) :
    Cursor.At m p (t + 4) (c.next32 m).2 := h.advance 4

theorem Cursor.At.next16_fst {m : Memory} {p : Word} {t : Nat} {c : Cursor} (h : Cursor.At m p t c) :
    (c.next16 m).1 = (m.read (byteAddr p t) 2).setWidth 16 := by rw [Cursor.next16, h.bytesLE 2]

theorem Cursor.At.delta {m : Memory} {p : Word} {t : Nat} {c : Cursor} (h : Cursor.At m p t c) :
    c.delta = BitVec.ofNat 32 t := by rw [Cursor.delta, h.2]

end Sys2Proof.Machine
end

