-- ==== Sys2Proof/Laws/Decode.lean ====
section
/-! SUPPORT. The decoder as a function of the bytes from the start address, the inversion of the field
functions, and the bytes of an encoding one by one. -/

namespace Sys2Proof

open Sys2Proof.Machine

/-- The decoder of rule R71 as a function of the stream and of the address fields read from it. -/
def decodeStream (byte : Nat → Byte) (field : Nat → Word) : DecodeResult :=
  if byte 0 = 0x00#8 then .ok .halt 1#32
  else if byte 0 = 0x01#8 then
    match shapeOf (byte 1) with
    | .regToReg =>
      match regOfId (byte 2) with
      | none => .error (.invalidRegisterId .src (byte 2))
      | some src =>
        match regOfId (byte 3) with
        | none => .error (.invalidRegisterId .dst (byte 3))
        | some dst => .ok (.movRR src dst) 4#32
    | .regToMem =>
      match regOfId (byte 2) with
      | none => .error (.invalidRegisterId .src (byte 2))
      | some src => .ok (mkRegToMem (widthOf (byte 1)) src (field 3)) 7#32
    | .memToReg =>
      match regOfId (byte 6) with
      | none => .error (.invalidRegisterId .dst (byte 6))
      | some dst => .ok (mkMemToReg (widthOf (byte 1)) (field 2) dst) 7#32
    | .memToMem => .ok (mkMemToMem (widthOf (byte 1)) (field 2) (field 6)) 10#32
  else .error (.invalidGroup (byte 0))

/-- What the decoder answers depends on the memory and the start address through the stream alone. -/
theorem decode_eq_stream (m : Memory) (p : Word) :
    decode m p = decodeStream (m.instrByte p) (fun j => m.read (byteAddr p j) 4) := by
  have h0 := Cursor.at_start m p
  have h1 := h0.next8_snd
  have h2 := h1.next8_snd
  have h3 := h2.next8_snd
  have h4 := h3.next8_snd
  have h7 := h3.next32_snd
  have h6 := h2.next32_snd
  have h7' := h6.next8_snd
  have h10 := h6.next32_snd
  simp only [decode, decodeStream, Memory.instrByte, decodeMove, decodeRegToReg, decodeRegToMem, decodeMemToReg,
    decodeMemToMem, h0.next8_fst, h1.next8_fst, h2.next8_fst, h3.next8_fst, h3.next32_fst, h2.next32_fst,
    h6.next8_fst, h6.next32_fst, h1.delta, h4.delta, h7.delta, h7'.delta, h10.delta,
    Nat.reduceAdd]
  rfl

/-- An address field is determined by its four bytes. -/
theorem fields_congr {m n : Memory} {p q : Word} {j : Nat}
    (h : ∀ k, k < 4 → m.instrByte p (j + k) = n.instrByte q (j + k)) :
    m.read (byteAddr p j) 4 = n.read (byteAddr q j) 4 := by
  refine read_congr (le_refl 4) fun k hk => ?_
  rw [byteAddr_byteAddr, byteAddr_byteAddr]
  exact h k hk

/-- Two streams that agree on the bytes of the longest instruction decode alike. -/
theorem decode_congr {m n : Memory} {p q : Word}
    (h : ∀ j, j < maxInstrBytes → m.instrByte p j = n.instrByte q j) : decode m p = decode n q := by
  have hf (j : Nat) (hj : j + 4 ≤ maxInstrBytes) : m.read (byteAddr p j) 4 = n.read (byteAddr q j) 4 :=
    fields_congr fun k hk => h _ (by omega)
  rw [decode_eq_stream, decode_eq_stream]
  simp only [decodeStream, h 0 (by decide), h 1 (by decide), h 2 (by decide), h 3 (by decide),
    h 6 (by decide), hf 2 (by decide), hf 3 (by decide), hf 6 (by decide)]

/-! ## Fields of an encoding -/

@[simp] theorem regOfId_regId (r : Reg) : regOfId (regId r) = some r := by cases r <;> rfl

theorem regOfId_eq_some {b : Byte} {r : Reg} : regOfId b = some r ↔ b = regId r := by
  constructor
  · intro h
    unfold regOfId at h
    split at h
    · next hb => cases h; exact hb
    · split at h
      · next hb => cases h; exact hb
      · split at h
        · next hb => cases h; exact hb
        · split at h
          · next hb => cases h; exact hb
          · cases h
  · rintro rfl; exact regOfId_regId r

theorem regOfId_eq_none {b : Byte} : regOfId b = none ↔ 3 < b.toNat := by
  revert b; decide

theorem regId_lt (r : Reg) : (regId r).toNat < 4 := by cases r <;> decide

theorem moveGroup_shape (ss ww : BitVec 2) (low : BitVec 4) : (moveGroup ss ww low).extractLsb' 6 2 = ss := by
  revert ss ww low; decide

theorem moveGroup_width (ss ww : BitVec 2) (low : BitVec 4) : (moveGroup ss ww low).extractLsb' 4 2 = ww := by
  revert ss ww low; decide

/-- Every byte is a move-group byte: its shape bits, its width bits and its ignored low bits. -/
theorem moveGroup_split (b : Byte) :
    b = moveGroup (b.extractLsb' 6 2) (b.extractLsb' 4 2) (b.extractLsb' 0 4) := by
  revert b; decide

/-- The bytes of an address field read back are the address (R66). -/
theorem read_of_addrBytes {m : Memory} {p a : Word} {j : Nat}
    (h : ∀ k, k < 4 → m.instrByte p (j + k) = byteOf a k) : m.read (byteAddr p j) 4 = a := by
  apply word_ext
  intro k hk
  rw [byteOf_read _ _ (le_refl 4), if_pos hk, byteAddr_byteAddr]
  exact h k hk

/-- The inversion of a decode that succeeds: one case for HALT and one for each shape. -/
theorem decode_ok_cases {m : Memory} {p : Word} {i : Instr} {d : Word} (h : decode m p = .ok i d) :
    (m.instrByte p 0 = 0x00#8 ∧ i = .halt ∧ d = 1#32) ∨
    m.instrByte p 0 = 0x01#8 ∧
      ((shapeOf (m.instrByte p 1) = .regToReg ∧ ∃ src dst, m.instrByte p 2 = regId src ∧
          m.instrByte p 3 = regId dst ∧ i = .movRR src dst ∧ d = 4#32) ∨
        (shapeOf (m.instrByte p 1) = .regToMem ∧ ∃ src, m.instrByte p 2 = regId src ∧
          i = mkRegToMem (widthOf (m.instrByte p 1)) src (m.read (byteAddr p 3) 4) ∧ d = 7#32) ∨
        (shapeOf (m.instrByte p 1) = .memToReg ∧ ∃ dst, m.instrByte p 6 = regId dst ∧
          i = mkMemToReg (widthOf (m.instrByte p 1)) (m.read (byteAddr p 2) 4) dst ∧ d = 7#32) ∨
        (shapeOf (m.instrByte p 1) = .memToMem ∧
          i = mkMemToMem (widthOf (m.instrByte p 1)) (m.read (byteAddr p 2) 4) (m.read (byteAddr p 6) 4) ∧
          d = 10#32)) := by
  rw [decode_eq_stream, decodeStream] at h
  split at h
  · next h0 => cases h; exact .inl ⟨h0, rfl, rfl⟩
  split at h
  · next h1 =>
    refine .inr ⟨h1, ?_⟩
    cases hs : shapeOf (m.instrByte p 1) <;> simp only [hs] at h
    · cases ha : regOfId (m.instrByte p 2) <;> simp only [ha] at h
      · cases h
      cases hb : regOfId (m.instrByte p 3) <;> simp only [hb] at h <;> cases h
      exact .inl ⟨rfl, _, _, regOfId_eq_some.1 ha, regOfId_eq_some.1 hb, rfl, rfl⟩
    · cases ha : regOfId (m.instrByte p 2) <;> simp only [ha] at h <;> cases h
      exact .inr (.inl ⟨rfl, _, regOfId_eq_some.1 ha, rfl, rfl⟩)
    · cases ha : regOfId (m.instrByte p 6) <;> simp only [ha] at h <;> cases h
      exact .inr (.inr (.inl ⟨rfl, _, regOfId_eq_some.1 ha, rfl, rfl⟩))
    · cases h
      exact .inr (.inr (.inr ⟨rfl, rfl, rfl⟩))
  · cases h

theorem encodeWith_length (g : IgnoredBits) (i : Instr) : (encodeWith g i).length = i.length := by
  cases i <;> rfl

theorem length_le_max (i : Instr) : i.length ≤ maxInstrBytes := by
  cases i <;> simp [Instr.length, maxInstrBytes]

end Sys2Proof
end

