-- ==== Sys2Proof/Laws/State.lean ====
section
/-! SUPPORT. One lemma per state field per update, and the register reads after each register write. -/

namespace Sys2Proof.Machine

/-! ## What the register setter leaves alone -/

@[simp] theorem State.setReg_flags (s : State) (r : RegName) (w : Width) (v : Word) :
    (s.setReg r w v).flags = s.flags := by rcases r with ⟨_ | _ | _ | _⟩ | _ <;> rfl

@[simp] theorem State.setReg_mem (s : State) (r : RegName) (w : Width) (v : Word) :
    (s.setReg r w v).mem = s.mem := by rcases r with ⟨_ | _ | _ | _⟩ | _ <;> rfl

@[simp] theorem State.setReg_gpr_ip (s : State) (r : Reg) (w : Width) (v : Word) :
    (s.setReg (.gpr r) w v).ip = s.ip := by cases r <;> rfl

@[simp] theorem State.setReg_ip_a (s : State) (w : Width) (v : Word) : (s.setReg .ip w v).a = s.a := rfl
@[simp] theorem State.setReg_ip_b (s : State) (w : Width) (v : Word) : (s.setReg .ip w v).b = s.b := rfl
@[simp] theorem State.setReg_ip_x (s : State) (w : Width) (v : Word) : (s.setReg .ip w v).x = s.x := rfl
@[simp] theorem State.setReg_ip_y (s : State) (w : Width) (v : Word) : (s.setReg .ip w v).y = s.y := rfl

theorem State.reg_setReg_self (s : State) (r : RegName) (w : Width) (v : Word) :
    (s.setReg r w v).reg r = mergeWidth w (s.reg r) v := by rcases r with ⟨_ | _ | _ | _⟩ | _ <;> rfl

theorem State.reg_setReg_ne (s : State) {r q : RegName} (h : q ≠ r) (w : Width) (v : Word) :
    (s.setReg r w v).reg q = s.reg q := by
  rcases r with ⟨_ | _ | _ | _⟩ | _ <;> rcases q with ⟨_ | _ | _ | _⟩ | _ <;>
    first | rfl | exact absurd rfl h

/-! ## What a memory write leaves alone -/

@[simp] theorem State.dstMem_a (s : State) (w : Width) (a v : Word) : (s.dstMem w a v).a = s.a := rfl
@[simp] theorem State.dstMem_b (s : State) (w : Width) (a v : Word) : (s.dstMem w a v).b = s.b := rfl
@[simp] theorem State.dstMem_x (s : State) (w : Width) (a v : Word) : (s.dstMem w a v).x = s.x := rfl
@[simp] theorem State.dstMem_y (s : State) (w : Width) (a v : Word) : (s.dstMem w a v).y = s.y := rfl
@[simp] theorem State.dstMem_ip (s : State) (w : Width) (a v : Word) : (s.dstMem w a v).ip = s.ip := rfl
@[simp] theorem State.dstMem_flags (s : State) (w : Width) (a v : Word) :
    (s.dstMem w a v).flags = s.flags := rfl
@[simp] theorem State.dstMem_mem (s : State) (w : Width) (a v : Word) :
    (s.dstMem w a v).mem = s.mem.write a v (widthBytes w) := rfl
@[simp] theorem State.dstMem_reg (s : State) (w : Width) (a v : Word) (r : RegName) :
    (s.dstMem w a v).reg r = s.reg r := by rcases r with ⟨_ | _ | _ | _⟩ | _ <;> rfl

/-! ## The advance of IP -/

theorem mergeWidth_w32 (old v : Word) : mergeWidth .w32 old v = v := by
  have h : (0xFFFFFFFF#32 : Word) = BitVec.allOnes 32 := by decide
  simp only [mergeWidth, widthMask]
  rw [h, BitVec.not_allOnes, BitVec.and_zero, BitVec.zero_or, BitVec.and_allOnes]

@[simp] theorem State.advanceIp_ip (s : State) (d : Word) : (s.advanceIp d).ip = s.ip + d :=
  mergeWidth_w32 _ _
@[simp] theorem State.advanceIp_a (s : State) (d : Word) : (s.advanceIp d).a = s.a := rfl
@[simp] theorem State.advanceIp_b (s : State) (d : Word) : (s.advanceIp d).b = s.b := rfl
@[simp] theorem State.advanceIp_x (s : State) (d : Word) : (s.advanceIp d).x = s.x := rfl
@[simp] theorem State.advanceIp_y (s : State) (d : Word) : (s.advanceIp d).y = s.y := rfl
@[simp] theorem State.advanceIp_flags (s : State) (d : Word) : (s.advanceIp d).flags = s.flags := rfl
@[simp] theorem State.advanceIp_mem (s : State) (d : Word) : (s.advanceIp d).mem = s.mem := rfl

theorem State.advanceIp_gpr (s : State) (d : Word) (r : Reg) : (s.advanceIp d).reg (.gpr r) = s.reg (.gpr r) := by
  cases r <;> rfl

theorem State.advanceIp_eq (s : State) (d : Word) : s.advanceIp d = { s with ip := s.ip + d } := by
  simp [State.advanceIp, State.setReg, mergeWidth_w32]

end Sys2Proof.Machine
end

