-- ==== Sys2Proof/Laws/Ops.lean ====
section
/-! SUPPORT. What each shared operation and each meaning can do, said once. -/

namespace Sys2Proof.Machine

theorem widthBytes_le (w : Width) : widthBytes w ≤ 4 := by cases w <;> decide

/-- A byte inside the width survives the mask; a byte outside it becomes zero (R9, R26). -/
theorem byteOf_and_widthMask (w : Width) (v : Word) {k : Nat} (hk : k < widthBytes w) :
    byteOf (v &&& widthMask w) k = byteOf v k := by
  have hm : byteOf (widthMask w) k = 0xFF#8 := by
    cases w <;> (simp only [widthBytes] at hk; interval_cases k) <;> decide
  have ha : (0xFF#8 : Byte) = BitVec.allOnes 8 := by decide
  calc byteOf (v &&& widthMask w) k = byteOf v k &&& byteOf (widthMask w) k := by
        simp [byteOf, BitVec.extractLsb'_and]
    _ = byteOf v k := by rw [hm, ha, BitVec.and_allOnes]

/-- The canonical form is kept by every update of a state's memory. -/
theorem State.dstMem_wf {s : State} (h : s.mem.wf = true) (w : Width) (a v : Word) :
    (s.dstMem w a v).mem.wf = true := Memory.wf_write h _ _ _

/-- Every instruction answers a next state (R82: execution has no failure outcome), and what that state can
be: unchanged, one register set, or one value stored. -/
theorem exec_cases (i : Instr) (s : State) :
    exec i s = .next s ∨
    (∃ r w v, exec i s = .next (s.setReg (.gpr r) w v)) ∨
    (∃ w a v, exec i s = .next (s.dstMem w a v)) := by
  cases i with
  | halt => exact .inl rfl
  | movRR src dst => exact .inr (.inl ⟨dst, .w32, _, rfl⟩)
  | movRM8 | movRM16 | movRM32 => exact .inr (.inr ⟨_, _, _, rfl⟩)
  | movMR8 | movMR16 | movMR32 => exact .inr (.inl ⟨_, _, _, rfl⟩)
  | movMM8 | movMM16 | movMM32 => exact .inr (.inr ⟨_, _, _, rfl⟩)

end Sys2Proof.Machine
end

