-- ==== Sys2Proof/Laws/PerInstr.lean ====
section
/-! SUPPORT. Families of facts about every instruction as syntax, one lemma per constructor. -/

namespace Sys2Proof.Laws

open Sys2Proof.Machine

/-- The bytes of an instruction, whatever its ignored bits hold, are a legal encoding of its length that
the opcode table's row of its mnemonic describes (R60, R74, R75, R79). -/
def EncodingForm.Statement (i : Instr) : Prop :=
  ∀ g, encodingWf (encodeWith g i) = true ∧ (encodeWith g i).length = i.length ∧
    ∃ r ∈ opcodeTable, r.mnemonic = i.mnemonic ∧ r.length = i.length ∧
      r.selects (opc16 ((encodeWith g i).getD 0 0#8) ((encodeWith g i).getD 1 0#8)) = true

theorem regIdOk_regId (r : Reg) : regIdOk (regId r) = true := by cases r <;> rfl

theorem opc16_selects_wide (ss : BitVec 2) (g : IgnoredBits) :
    opc16 0x01#8 (moveGroup ss (wideCode g) g.low) &&& 0xFFE0#16 = opc16 0x01#8 (moveGroup ss 2#2 0#4) := by
  obtain ⟨low, wide, _⟩ := g
  change opc16 0x01#8 (moveGroup ss (1#1 ++ wide) low) &&& 0xFFE0#16 = _
  revert ss low wide; decide

theorem opc16_selects_narrow (ss ww : BitVec 2) (low : BitVec 4) :
    opc16 0x01#8 (moveGroup ss ww low) &&& 0xFFF0#16 = opc16 0x01#8 (moveGroup ss ww 0#4) := by
  revert ss ww low; decide

theorem opc16_selects_rr (ww : BitVec 2) (low : BitVec 4) :
    opc16 0x01#8 (moveGroup 0#2 ww low) &&& 0xFFC0#16 = 0x0100#16 := by
  revert ww low; decide

theorem EncodingForm.halt : EncodingForm.Statement .halt :=
  fun _ => ⟨rfl, rfl, ⟨"HALT", 0x0000#16, 0xFF00#16, 1⟩, by simp [opcodeTable], rfl, rfl,
    by change (opc16 0x00#8 0x00#8 &&& 0xFF00#16 == 0x0000#16) = true; decide⟩

theorem EncodingForm.movRR (src dst : Reg) : EncodingForm.Statement (.movRR src dst) := fun g =>
  ⟨by simp [encodeWith, encodingWf, moveOperandsWf, moveGroup_shape, regIdOk_regId], rfl,
    ⟨"MOV.RR", 0x0100#16, 0xFFC0#16, 4⟩, by simp [opcodeTable], rfl, rfl,
    by simp [encodeWith, OpcodeRow.selects, opc16_selects_rr]⟩

theorem EncodingForm.movRM8 (src : Reg) (addr : Word) : EncodingForm.Statement (.movRM8 src addr) := fun g =>
  ⟨by simp [encodeWith, encodingWf, moveOperandsWf, moveGroup_shape, regIdOk_regId, addrBytes], rfl,
    ⟨"MOV.RM8", 0x0140#16, 0xFFF0#16, 7⟩, by simp [opcodeTable], rfl, rfl,
    by simp [encodeWith, OpcodeRow.selects, opc16_selects_narrow]; decide⟩

theorem EncodingForm.movRM16 (src : Reg) (addr : Word) : EncodingForm.Statement (.movRM16 src addr) := fun g =>
  ⟨by simp [encodeWith, encodingWf, moveOperandsWf, moveGroup_shape, regIdOk_regId, addrBytes], rfl,
    ⟨"MOV.RM16", 0x0150#16, 0xFFF0#16, 7⟩, by simp [opcodeTable], rfl, rfl,
    by simp [encodeWith, OpcodeRow.selects, opc16_selects_narrow]; decide⟩

theorem EncodingForm.movRM32 (src : Reg) (addr : Word) : EncodingForm.Statement (.movRM32 src addr) := fun g =>
  ⟨by simp [encodeWith, encodingWf, moveOperandsWf, moveGroup_shape, regIdOk_regId, addrBytes], rfl,
    ⟨"MOV.RM32", 0x0160#16, 0xFFE0#16, 7⟩, by simp [opcodeTable], rfl, rfl,
    by simp [encodeWith, OpcodeRow.selects, opc16_selects_wide]; decide⟩

theorem EncodingForm.movMR8 (addr : Word) (dst : Reg) : EncodingForm.Statement (.movMR8 addr dst) := fun g =>
  ⟨by simp [encodeWith, encodingWf, moveOperandsWf, moveGroup_shape, regIdOk_regId, addrBytes], rfl,
    ⟨"MOV.MR8", 0x0180#16, 0xFFF0#16, 7⟩, by simp [opcodeTable], rfl, rfl,
    by simp [encodeWith, OpcodeRow.selects, opc16_selects_narrow]; decide⟩

theorem EncodingForm.movMR16 (addr : Word) (dst : Reg) : EncodingForm.Statement (.movMR16 addr dst) := fun g =>
  ⟨by simp [encodeWith, encodingWf, moveOperandsWf, moveGroup_shape, regIdOk_regId, addrBytes], rfl,
    ⟨"MOV.MR16", 0x0190#16, 0xFFF0#16, 7⟩, by simp [opcodeTable], rfl, rfl,
    by simp [encodeWith, OpcodeRow.selects, opc16_selects_narrow]; decide⟩

theorem EncodingForm.movMR32 (addr : Word) (dst : Reg) : EncodingForm.Statement (.movMR32 addr dst) := fun g =>
  ⟨by simp [encodeWith, encodingWf, moveOperandsWf, moveGroup_shape, regIdOk_regId, addrBytes], rfl,
    ⟨"MOV.MR32", 0x01A0#16, 0xFFE0#16, 7⟩, by simp [opcodeTable], rfl, rfl,
    by simp [encodeWith, OpcodeRow.selects, opc16_selects_wide]; decide⟩

theorem EncodingForm.movMM8 (srcAddr dstAddr : Word) : EncodingForm.Statement (.movMM8 srcAddr dstAddr) := fun g =>
  ⟨by simp [encodeWith, encodingWf, moveOperandsWf, moveGroup_shape, addrBytes], rfl,
    ⟨"MOV.MM8", 0x01C0#16, 0xFFF0#16, 10⟩, by simp [opcodeTable], rfl, rfl,
    by simp [encodeWith, OpcodeRow.selects, opc16_selects_narrow]; decide⟩

theorem EncodingForm.movMM16 (srcAddr dstAddr : Word) : EncodingForm.Statement (.movMM16 srcAddr dstAddr) := fun g =>
  ⟨by simp [encodeWith, encodingWf, moveOperandsWf, moveGroup_shape, addrBytes], rfl,
    ⟨"MOV.MM16", 0x01D0#16, 0xFFF0#16, 10⟩, by simp [opcodeTable], rfl, rfl,
    by simp [encodeWith, OpcodeRow.selects, opc16_selects_narrow]; decide⟩

theorem EncodingForm.movMM32 (srcAddr dstAddr : Word) : EncodingForm.Statement (.movMM32 srcAddr dstAddr) := fun g =>
  ⟨by simp [encodeWith, encodingWf, moveOperandsWf, moveGroup_shape, addrBytes], rfl,
    ⟨"MOV.MM32", 0x01E0#16, 0xFFE0#16, 10⟩, by simp [opcodeTable], rfl, rfl,
    by simp [encodeWith, OpcodeRow.selects, opc16_selects_wide]; decide⟩

end Sys2Proof.Laws
end

