-- ==== Sys2Proof/Laws/Step.lean ====
section
/-! SUPPORT. What one step can do, said once: the decode fails and the step faults, or it succeeds and the
step answers what `exec` answers. -/

namespace Sys2Proof.Machine

theorem step_of_error {s : State} {e : DecodeError} (h : decode s.mem s.ip = .error e) :
    step s = .fault (.decodeError e) := by rw [step, h]; rfl

theorem step_of_ok {s : State} {i : Instr} {d : Word} (h : decode s.mem s.ip = .ok i d) :
    step s = exec i (s.advanceIp d) := by rw [step, h]

/-- The inversion of a step that answers a next state. -/
theorem step_next {s t : State} (h : step s = .next t) :
    ∃ i d, decode s.mem s.ip = .ok i d ∧ exec i (s.advanceIp d) = .next t := by
  cases hd : decode s.mem s.ip with
  | ok i d => exact ⟨i, d, rfl, step_of_ok hd ▸ h⟩
  | error e => rw [step_of_error hd] at h; cases h

end Sys2Proof.Machine
end

