-- ==== Sys2Proof/Tests/Slice0.lean ====
section
/-! SUPPORT. The model's own tests. Expected results are the spec's: the worked examples W1 to W8 of the source
and the hand-derived vectors of 95_test_vectors.md, whose ids the docstrings give. The witnesses at the end
show states that meet the hypotheses of the statements. -/

namespace Sys2Proof.Machine.Tests

/-! ## Helpers -/

/-- A memory of the default size with an image. -/
def mem28 (image : List Host.Cell) : Memory := Memory.ofImage Config.defaultMemSize image

/-- A memory of the default size with bytes at consecutive addresses. -/
def memAt (p : Word) (bs : List Byte) : Memory := (Memory.empty Config.defaultMemSize).placeBytes p bs

/-- A memory of 16 bytes in which byte i holds i (95_test_vectors.md 2.2). -/
def mem16 : Memory := Memory.ofImage ⟨2⟩ ((List.range 16).map fun i => (i, BitVec.ofNat 8 i))

/-- The decode of bytes at IP = 0. -/
def dec (bs : List Byte) : DecodeResult := decode (memAt 0#32 bs) 0#32

/-- A state with the given registers, an image, and an instruction's bytes at IP. -/
def st (a b x y ip : Word) (image : List Host.Cell) (bs : List Byte) : State :=
  State.placeAtIp { State.reset with a := a, b := b, x := x, y := y, ip := ip, mem := mem28 image } bs

/-- The outcome is a next state that passes the check. -/
def nextSat (o : Outcome) (p : State → Bool) : Bool :=
  match o with
  | .next t => p t
  | .fault _ => false
  | .refused _ => false

/-- The outcome is this fault. -/
def isFault (o : Outcome) (f : Fault) : Bool :=
  match o with
  | .next _ => false
  | .fault g => f == g
  | .refused _ => false

/-- The bytes from an address on. -/
def bytesAt (m : Memory) (p : Word) (n : Nat) : List Byte := (List.range n).map fun k => m.byteAt (byteAddr p k)

/-! ## Well-formedness: each check refuses an ill-formed term -/

theorem test_wf_accepts_legal : encodingWf [0x01#8, 0x3F#8, 0x03#8, 0x00#8] = true := by decide
theorem test_wf_refuses_no_bytes : encodingWf [] = false := by decide
theorem test_wf_refuses_group_02 : encodingWf [0x02#8] = false := by decide
theorem test_wf_refuses_group_ff_move : encodingWf [0xFF#8, 0x00#8, 0x00#8, 0x00#8] = false := by decide
theorem test_wf_refuses_halt_with_operand : encodingWf [0x00#8, 0x00#8] = false := by decide
theorem test_wf_refuses_rr_src_04 : encodingWf [0x01#8, 0x00#8, 0x04#8, 0x00#8] = false := by decide
theorem test_wf_refuses_rr_dst_ff : encodingWf [0x01#8, 0x00#8, 0x00#8, 0xFF#8] = false := by decide
theorem test_wf_refuses_rm_src_10 :
    encodingWf [0x01#8, 0x40#8, 0x10#8, 0x00#8, 0x00#8, 0x00#8, 0x00#8] = false := by decide
theorem test_wf_refuses_mr_dst_04 :
    encodingWf [0x01#8, 0x80#8, 0x00#8, 0x00#8, 0x00#8, 0x00#8, 0x04#8] = false := by decide
theorem test_wf_refuses_short_rr : encodingWf [0x01#8, 0x00#8, 0x00#8] = false := by decide
theorem test_wf_refuses_short_rm : encodingWf [0x01#8, 0x40#8, 0x00#8, 0x00#8] = false := by decide
theorem test_wf_refuses_short_mr : encodingWf [0x01#8, 0x80#8, 0x00#8, 0x00#8] = false := by decide
theorem test_wf_refuses_short_mm :
    encodingWf [0x01#8, 0xC0#8, 0x00#8, 0x00#8, 0x00#8, 0x00#8, 0x00#8] = false := by decide
theorem test_group_byte_checks : groupByteOk 0x02#8 = false ∧ groupByteOk 0x01#8 = true := by decide
theorem test_reg_id_checks : regIdOk 0x04#8 = false ∧ regIdOk 0x03#8 = true := by decide
/-- Two keys out of order, a key at MEM_SIZE, an entry that says zero. -/
theorem test_memory_wf_refuses :
    (⟨⟨2⟩, [(3, 1#8), (2, 1#8)]⟩ : Memory).wf = false ∧ (⟨⟨2⟩, [(16, 1#8)]⟩ : Memory).wf = false ∧
      (⟨⟨2⟩, [(3, 0#8)]⟩ : Memory).wf = false := by decide

/-! ## Decoding: words written out bit by bit from rules R61 to R70 -/

theorem test_decode_halt : dec [0x00#8] = .ok .halt 1#32 := by decide
/-- V-DEC-5: the width code of shape 0 is ignored. -/
theorem test_decode_movRR : dec [0x01#8, 0b00_11_0000#8, 0x00#8, 0x01#8] = .ok (.movRR .A .B) 4#32 := by decide
theorem test_decode_movRM8 : dec [0x01#8, 0b01_00_0000#8, 0x02#8, 0x78#8, 0x56#8, 0x34#8, 0x12#8]
    = .ok (.movRM8 .X 0x12345678#32) 7#32 := by decide
theorem test_decode_movRM16 : dec [0x01#8, 0b01_01_0000#8, 0x01#8, 0x00#8, 0x01#8, 0x00#8, 0x00#8]
    = .ok (.movRM16 .B 0x100#32) 7#32 := by decide
theorem test_decode_movRM32 : dec [0x01#8, 0b01_10_0000#8, 0x03#8, 0xFF#8, 0xFF#8, 0xFF#8, 0xFF#8]
    = .ok (.movRM32 .Y 0xFFFFFFFF#32) 7#32 := by decide
/-- V-DEC-16: width code 3 and bits 3:0 all ones. -/
theorem test_decode_movRM32_ignored_bits : dec [0x01#8, 0b01_11_1111#8, 0x00#8, 0x10#8, 0x00#8, 0x00#8, 0x00#8]
    = .ok (.movRM32 .A 0x10#32) 7#32 := by decide
theorem test_decode_movMR8 : dec [0x01#8, 0b10_00_0000#8, 0xEF#8, 0xBE#8, 0xAD#8, 0xDE#8, 0x03#8]
    = .ok (.movMR8 0xDEADBEEF#32 .Y) 7#32 := by decide
theorem test_decode_movMR16 : dec [0x01#8, 0b10_01_0000#8, 0x00#8, 0x00#8, 0x00#8, 0x00#8, 0x00#8]
    = .ok (.movMR16 0#32 .A) 7#32 := by decide
theorem test_decode_movMR32 : dec [0x01#8, 0b10_11_0000#8, 0x00#8, 0x00#8, 0x00#8, 0x00#8, 0x01#8]
    = .ok (.movMR32 0#32 .B) 7#32 := by decide
theorem test_decode_movMM8 : dec [0x01#8, 0b11_00_0000#8, 1#8, 0#8, 0#8, 0#8, 2#8, 0#8, 0#8, 0#8]
    = .ok (.movMM8 1#32 2#32) 10#32 := by decide
theorem test_decode_movMM16 : dec [0x01#8, 0b11_01_0000#8, 1#8, 0#8, 0#8, 0#8, 2#8, 0#8, 0#8, 0#8]
    = .ok (.movMM16 1#32 2#32) 10#32 := by decide
/-- V-DEC-27: no register id in shape 3, so `04` is an address byte. -/
theorem test_decode_movMM32 : dec [0x01#8, 0b11_11_1111#8, 4#8, 0#8, 0#8, 0#8, 9#8, 0#8, 0#8, 0#8]
    = .ok (.movMM32 4#32 9#32) 10#32 := by decide
/-- V-DEC-2 and V-DEC-3. -/
theorem test_decode_invalid_group :
    dec [0x02#8] = .error (.invalidGroup 0x02#8) ∧ dec [0xFF#8] = .error (.invalidGroup 0xFF#8) := by decide
/-- V-DEC-7, -9, -10 and -11: a whole byte is compared, and the source is checked first. -/
theorem test_decode_invalid_register_rr :
    dec [0x01#8, 0x00#8, 0x04#8, 0x00#8] = .error (.invalidRegisterId .src 0x04#8) ∧
    dec [0x01#8, 0x00#8, 0x10#8, 0x00#8] = .error (.invalidRegisterId .src 0x10#8) ∧
    dec [0x01#8, 0x00#8, 0x05#8, 0x06#8] = .error (.invalidRegisterId .src 0x05#8) ∧
    dec [0x01#8, 0x00#8, 0x00#8, 0x07#8] = .error (.invalidRegisterId .dst 0x07#8) := by decide
/-- V-DEC-17 and V-DEC-22. -/
theorem test_decode_invalid_register_rm_mr :
    dec [0x01#8, 0x44#8, 0x04#8, 0#8, 0#8, 0#8, 0#8] = .error (.invalidRegisterId .src 0x04#8) ∧
    dec [0x01#8, 0xA0#8, 0#8, 0#8, 0#8, 0#8, 0x04#8] = .error (.invalidRegisterId .dst 0x04#8) := by decide
/-- V-DEC-28: an instruction that straddles the end of a 16-byte memory, at three addresses of one index. -/
theorem test_decode_straddles_the_end :
    let m := (Memory.empty ⟨2⟩).placeBytes 14#32 [0x01#8, 0xA0#8, 5#8, 0#8, 0#8, 0#8, 2#8]
    decode m 14#32 = .ok (.movMR32 5#32 .X) 7#32 ∧ decode m 30#32 = .ok (.movMR32 5#32 .X) 7#32 ∧
      decode m 0xFFFFFFFE#32 = .ok (.movMR32 5#32 .X) 7#32 := by decide

/-- The first word of each row of spec/opcode_table.json, its `match`, decodes to that row's instruction. -/
theorem test_table_words_short : [0x0000, 0x0100, 0x0140, 0x0150, 0x0160].map (decodeTableWord 16) =
    [some .halt, some (.movRR .A .A), some (.movRM8 .A 0#32), some (.movRM16 .A 0#32),
      some (.movRM32 .A 0#32)] := by decide
theorem test_table_words_long : [0x0180, 0x0190, 0x01A0, 0x01C0, 0x01D0, 0x01E0, 0x0200].map (decodeTableWord 16) =
    [some (.movMR8 0#32 .A), some (.movMR16 0#32 .A), some (.movMR32 0#32 .A), some (.movMM8 0#32 0#32),
      some (.movMM16 0#32 0#32), some (.movMM32 0#32 0#32), none] := by decide
/-- `withFetchWord` places the row's instruction where the next step fetches it. -/
theorem test_withFetchWord_runs_first :
    nextSat (step (State.reset.withFetchWord 16 0x01E0)) (fun t => t.ip == 10#32) = true ∧
    nextSat (step (State.reset.withFetchWord 16 0x0000)) (fun t => t.ip == 1#32) = true ∧
    (State.reset.withFetchWord 16 0x01E0).snapshot.next = decodeTableWord 16 0x01E0 := by decide

/-! ## The register setter, memory and the cursor -/

/-- V-SET-1 to V-SET-5. -/
theorem test_setReg :
    mergeWidth .w8 0x12345678#32 0xAABBCCDD#32 = 0x123456DD#32 ∧
    mergeWidth .w16 0x12345678#32 0xAABBCCDD#32 = 0x1234CCDD#32 ∧
    mergeWidth .w32 0x12345678#32 0xAABBCCDD#32 = 0xAABBCCDD#32 ∧
    mergeWidth .w8 0xFFFFFFFF#32 0#32 = 0xFFFFFF00#32 ∧ mergeWidth .w16 0#32 0xFFFFFFFF#32 = 0xFFFF#32 := by decide
/-- V-MEM-1: `next32` at 14 of 16 bytes. -/
theorem test_cursor_next32_wraps : (Cursor.start mem16 14#32).next32 mem16 = (0x01000F0E#32, ⟨2, 4⟩) := by decide
/-- V-MEM-2: `next16` at an address whose physical index is 15. -/
theorem test_cursor_next16_wraps :
    (Cursor.start mem16 0xFFFFFFFF#32).next16 mem16 = (0x000F#16, ⟨1, 2⟩) := by decide
/-- V-MEM-3: a start beyond MEM_SIZE is reduced, not reset to 0. -/
theorem test_cursor_start_is_reduced : ((Cursor.start mem16 17#32).next8 mem16).1 = 0x01#8 := by decide
/-- V-MEM-5 and V-MEM-6. -/
theorem test_mem_wraps :
    mem16.read 0xFFFFFFFE#32 4 = 0x01000F0E#32 ∧
    (mem16.write 0x1F#32 0xBEEF#32 2).get 15 = 0xEF#8 ∧ (mem16.write 0x1F#32 0xBEEF#32 2).get 0 = 0xBE#8 := by decide
/-- V-MEM-7 and V-MEM-8. -/
theorem test_mem_mixed_width_and_alias :
    ((mem28 []).write 0#32 0x11223344#32 4).read 1#32 2 = 0x2233#32 ∧
    bytesAt ((mem28 []).write 0x10000010#32 0xCAFEBABE#32 4) 0x10#32 4 = [0xBE#8, 0xBA#8, 0xFE#8, 0xCA#8] := by decide
/-- Writing zero takes the entry out again (the canonical form). -/
theorem test_mem_zero_is_unlisted : ((mem28 [(5, 7#8)]).set 5 0#8) = mem28 [] := by decide

/-! ## One step per instruction -/

/-- W5, V-CYC-1: IP wraps at 2^32. -/
theorem test_step_halt_wraps : nextSat (step (st 0 0 0 0 0xFFFFFFFF#32 [] [0x00#8])) (fun t => t.ip == 0#32) = true := by
  decide
/-- V-CYC-5: IP at MEM_SIZE is not reduced. -/
theorem test_step_halt_ip_not_reduced :
    nextSat (step (st 0 0 0 0 0x10000000#32 [] [0x00#8])) (fun t => t.ip == 0x10000001#32) = true := by decide
/-- W1. -/
theorem test_step_movRR : nextSat (step (st 42#32 2#32 0 0 0 [] [0x01#8, 0x00#8, 0x00#8, 0x01#8]))
    (fun t => t.b == 42#32 && t.a == 42#32 && t.ip == 4#32) = true := by decide
/-- V-RR-3: the width code does not narrow the copy. -/
theorem test_step_movRR_ignores_width : nextSat (step (st 0xFFFFFFFF#32 0 0 0 0 [] [0x01#8, 0x10#8, 0x00#8, 0x01#8]))
    (fun t => t.b == 0xFFFFFFFF#32) = true := by decide
/-- V-RM-1. -/
theorem test_step_movRM8 : nextSat (step (st 0 0x11223344#32 0 0 0 [(0x10, 0xAA#8), (0x11, 0xAA#8)]
    [0x01#8, 0x40#8, 0x01#8, 0x10#8, 0#8, 0#8, 0#8])) (fun t => bytesAt t.mem 0x10#32 2 == [0x44#8, 0xAA#8]) = true := by
  decide
/-- V-RM-2: the second byte is at physical index 0. -/
theorem test_step_movRM16 : nextSat (step (st 0xBEEF#32 0 0 0 0x100#32 []
    [0x01#8, 0x50#8, 0x00#8, 0xFF#8, 0xFF#8, 0xFF#8, 0xFF#8]))
    (fun t => t.mem.get 0x0FFFFFFF == 0xEF#8 && t.mem.get 0 == 0xBE#8) = true := by decide
/-- V-RM-3. -/
theorem test_step_movRM32 : nextSat (step (st 0x04030201#32 0 0 0 0x100#32 []
    [0x01#8, 0x60#8, 0x00#8, 0xFE#8, 0xFF#8, 0xFF#8, 0xFF#8]))
    (fun t => bytesAt t.mem 0x0FFFFFFE#32 4 == [1#8, 2#8, 3#8, 4#8] && t.mem.get 1 == 4#8) = true := by decide
/-- V-RM-5: width code 3 as code 2. -/
theorem test_step_movRM32_code3 : nextSat (step (st 0x04030201#32 0 0 0 0 []
    [0x01#8, 0x70#8, 0x00#8, 0#8, 0#8, 0#8, 0#8]))
    (fun t => bytesAt t.mem 0#32 4 == [1#8, 2#8, 3#8, 4#8]) = true := by decide
/-- V-MR-4 with data at 0x20: a merge, not a zero extension. -/
theorem test_step_movMR8 : nextSat (step (st 0xFFFFFFFF#32 0 0 0 0 [(0x20, 1#8), (0x21, 2#8)]
    [0x01#8, 0x80#8, 0x20#8, 0#8, 0#8, 0#8, 0x00#8])) (fun t => t.a == 0xFFFFFF01#32) = true := by decide
/-- V-MR-1 with data at 0x20: a zero byte leaves bits 31:8. -/
theorem test_step_movMR8_zero : nextSat (step (st 0xFFFFFFFF#32 0 0 0 0 []
    [0x01#8, 0x80#8, 0x20#8, 0#8, 0#8, 0#8, 0x00#8])) (fun t => t.a == 0xFFFFFF00#32) = true := by decide
/-- V-MR-2: the read wraps at the end of memory. -/
theorem test_step_movMR16 : nextSat (step (st 0 0x12345678#32 0 0 0x100#32 [(0x0FFFFFFF, 0x34#8), (0, 0x12#8)]
    [0x01#8, 0x90#8, 0xFF#8, 0xFF#8, 0xFF#8, 0xFF#8, 0x01#8])) (fun t => t.b == 0x12341234#32) = true := by decide
/-- V-MR-3: no sign extension. -/
theorem test_step_movMR32 : nextSat (step (st 0 0 0 0xFFFFFFFF#32 0 [(0x13, 0x80#8)]
    [0x01#8, 0xA0#8, 0x10#8, 0#8, 0#8, 0#8, 0x03#8])) (fun t => t.y == 0x80000000#32) = true := by decide
/-- P2, cycle 1: the byte at 0x20 over the byte at 0x0E. -/
theorem test_step_movMM8 : nextSat (step (st 0 0 0 0 0 [(0x0E, 1#8), (0x20, 0x77#8)]
    [0x01#8, 0xC0#8, 0x20#8, 0#8, 0#8, 0#8, 0x0E#8, 0#8, 0#8, 0#8])) (fun t => t.mem.get 0x0E == 0x77#8) = true := by
  decide
/-- V-MM-2 with data at 0x20: overlapping, the old source bytes. -/
theorem test_step_movMM16 : nextSat (step (st 0 0 0 0 0 [(0x20, 1#8), (0x21, 2#8), (0x22, 3#8)]
    [0x01#8, 0xD0#8, 0x20#8, 0#8, 0#8, 0#8, 0x21#8, 0#8, 0#8, 0#8]))
    (fun t => bytesAt t.mem 0x20#32 3 == [1#8, 1#8, 2#8]) = true := by decide
/-- V-MM-3 with data at 0x20: overlapping, the old source bytes. -/
theorem test_step_movMM32 :
    nextSat (step (st 0 0 0 0 0 [(0x20, 1#8), (0x21, 2#8), (0x22, 3#8), (0x23, 4#8), (0x24, 5#8)]
    [0x01#8, 0xE0#8, 0x20#8, 0#8, 0#8, 0#8, 0x21#8, 0#8, 0#8, 0#8]))
    (fun t => bytesAt t.mem 0x20#32 5 == [1#8, 1#8, 2#8, 3#8, 4#8]) = true := by decide
/-- P4: the instruction's bytes wrap at the end of memory and IP wraps at 2^32. -/
theorem test_step_movMM32_wraps :
    nextSat (step (st 0 0 0 0 0xFFFFFFFA#32 [(0x10, 0xDE#8), (0x11, 0xAD#8), (0x12, 0xBE#8), (0x13, 0xEF#8)]
    [0x01#8, 0xE0#8, 0x10#8, 0#8, 0#8, 0#8, 0x20#8, 0#8, 0#8, 0#8]))
    (fun t => t.ip == 4#32 && bytesAt t.mem 0x20#32 4 == [0xDE#8, 0xAD#8, 0xBE#8, 0xEF#8]) = true := by decide
/-- V-CYC-6, P5: a decode error, with the state unchanged. -/
theorem test_step_decode_error :
    isFault (step (st 1#32 0 0 0 0x20#32 [] [0x05#8])) (.decodeError (.invalidGroup 0x05#8)) = true ∧
    isFault (step (st 1#32 0 0 0 0 [] [0x01#8, 0x00#8, 0x09#8, 0x07#8]))
      (.decodeError (.invalidRegisterId .src 0x09#8)) = true ∧
    cycle (st 1#32 0 0 0 0x20#32 [] [0x05#8]) = (st 1#32 0 0 0 0x20#32 [] [0x05#8], .err (.invalidGroup 0x05#8)) := by
  decide

/-! ## Witnesses: states and operands that meet the hypotheses of the statements -/

/-- A MOV.RM32 with width code 3 and every ignored bit set, at the end of the array. -/
theorem witness_EncodedInstructionDecodesToItself :
    (memAt 0x0FFFFFFE#32 [0x01#8, 0x7F#8, 0x03#8, 0xFF#8, 0xFF#8, 0xFF#8, 0xFF#8]).Holds 0x0FFFFFFE#32
      (encodeWith ⟨0xF#4, 1#1, 0#2⟩ (.movRM32 .Y 0xFFFFFFFF#32)) := by unfold Memory.Holds; decide
theorem witness_DecodedBytesAreAnEncoding :
    decode (memAt 0#32 [0x01#8, 0xFF#8, 4#8, 0#8, 0#8, 0#8, 9#8]) 0#32 = .ok (.movMM32 4#32 9#32) 10#32 := by decide
/-- Each of the five clauses, at the value where it begins. -/
theorem witness_DecodeErrorsAreTheIllegalEncodings :
    dec [0x02#8] = .error (.invalidGroup 0x02#8) ∧
    dec [0x01#8, 0x00#8, 0x04#8, 0x04#8] = .error (.invalidRegisterId .src 0x04#8) ∧
    dec [0x01#8, 0x00#8, 0x03#8, 0x04#8] = .error (.invalidRegisterId .dst 0x04#8) ∧
    dec [0x01#8, 0x40#8, 0x04#8] = .error (.invalidRegisterId .src 0x04#8) ∧
    dec [0x01#8, 0x80#8, 0#8, 0#8, 0#8, 0#8, 0x04#8] = .error (.invalidRegisterId .dst 0x04#8) := by decide
/-- Each clause, at the values where clauses meet. -/
theorem witness_GroupByteSelectsHaltMoveOrError :
    (memAt 0#32 [0x00#8]).instrByte 0#32 0 = 0x00#8 ∧ (memAt 0#32 [0x01#8]).instrByte 0#32 0 = 0x01#8 ∧
    2 ≤ ((memAt 0#32 [0x02#8]).instrByte 0#32 0).toNat ∧ 2 ≤ ((memAt 0#32 [0xFF#8]).instrByte 0#32 0).toNat := by
  decide
/-- The four width codes, in a shape that is not 0. -/
theorem witness_WidthCodeSelectsTheWidth_codes : [0xC0#8, 0xD0#8, 0xE0#8, 0xF0#8].map (fun mg => dec [0x01#8, mg]) =
    [.ok (.movMM8 0#32 0#32) 10#32, .ok (.movMM16 0#32 0#32) 10#32, .ok (.movMM32 0#32 0#32) 10#32,
      .ok (.movMM32 0#32 0#32) 10#32] := by decide
/-- Code 2 against code 3 in shape 1, and code 0 against code 1 in shape 0. -/
theorem witness_WidthCodeSelectsTheWidth_pairs :
    (let m := memAt 0#32 [0x01#8, 0x60#8]; let n := memAt 0#32 [0x01#8, 0x70#8]
     m.instrByte 0#32 0 = 0x01#8 ∧ m.instrByte 0#32 1 = moveGroup 1#2 2#2 0#4 ∧
     n.instrByte 0#32 1 = moveGroup 1#2 3#2 0#4 ∧
     ∀ j, j < 10 → j ≠ 1 → m.instrByte 0#32 j = n.instrByte 0#32 j) ∧
    (let m := memAt 0#32 [0x01#8, 0x00#8]; let n := memAt 0#32 [0x01#8, 0x10#8]
     m.instrByte 0#32 0 = 0x01#8 ∧ m.instrByte 0#32 1 = moveGroup 0#2 0#2 0#4 ∧
     n.instrByte 0#32 1 = moveGroup 0#2 1#2 0#4 ∧
     ∀ j, j < 10 → j ≠ 1 → m.instrByte 0#32 j = n.instrByte 0#32 j) := by decide
theorem witness_MoveGroupLowBitsAreIgnored :
    let m := memAt 0#32 [0x01#8, 0x40#8]; let n := memAt 0#32 [0x01#8, 0x4F#8]
    m.instrByte 0#32 0 = 0x01#8 ∧ m.instrByte 0#32 1 = moveGroup 1#2 0#2 0x0#4 ∧
    n.instrByte 0#32 1 = moveGroup 1#2 0#2 0xF#4 ∧
    ∀ j, j < 10 → j ≠ 1 → m.instrByte 0#32 j = n.instrByte 0#32 j := by decide
/-- Shape 0 with both ids legal, one illegal, the other, and both; shapes 1 and 2 legal and illegal. -/
theorem witness_RegisterIdByteIsComparedWhole :
    dec [0x01#8, 0x00#8, 0x03#8, 0x03#8] = .ok (.movRR .Y .Y) 4#32 ∧
    dec [0x01#8, 0x00#8, 0x04#8, 0x03#8] = .error (.invalidRegisterId .src 0x04#8) ∧
    dec [0x01#8, 0x00#8, 0x03#8, 0x04#8] = .error (.invalidRegisterId .dst 0x04#8) ∧
    dec [0x01#8, 0x00#8, 0x04#8, 0x04#8] = .error (.invalidRegisterId .src 0x04#8) ∧
    dec [0x01#8, 0x40#8, 0x03#8] = .ok (.movRM8 .Y 0#32) 7#32 ∧
    dec [0x01#8, 0x40#8, 0x04#8] = .error (.invalidRegisterId .src 0x04#8) ∧
    dec [0x01#8, 0x80#8, 0#8, 0#8, 0#8, 0#8, 0x03#8] = .ok (.movMR8 0#32 .Y) 7#32 ∧
    dec [0x01#8, 0x80#8, 0#8, 0#8, 0#8, 0#8, 0x04#8] = .error (.invalidRegisterId .dst 0x04#8) := by decide
/-- One instruction of each length. -/
theorem witness_LengthFollowsFromTheFirstTwoBytes : [[0x00#8], [0x01#8], [0x01#8, 0x40#8], [0x01#8, 0xC0#8]].map dec =
    [.ok .halt 1#32, .ok (.movRR .A .A) 4#32, .ok (.movRM8 .A 0#32) 7#32, .ok (.movMM8 0#32 0#32) 10#32] := by decide
theorem witness_OpcodeTableAgreesWithTheDecoder :
    dec [0x01#8, 0x9A#8] = .ok (.movMR16 0#32 .A) 7#32 ∧
    (⟨"MOV.MR16", 0x0190#16, 0xFFF0#16, 7⟩ : OpcodeRow) ∈ opcodeTable ∧
    (⟨"MOV.MR16", 0x0190#16, 0xFFF0#16, 7⟩ : OpcodeRow).selects (opc16 0x01#8 0x9A#8) = true := by decide
theorem witness_DecodeDependsOnIpModuloMemSize :
    (0x5#32 : Word).toNat % (mem28 []).size.bytes = (0xF0000005#32 : Word).toNat % (mem28 []).size.bytes := by decide
/-- The last index of the array, and an index that has left it. -/
theorem witness_CursorReadsWrapEveryByte :
    (⟨15, 0⟩ : Cursor).index < mem16.size.bytes ∧ mem16.size.bytes ≤ (⟨16, 0⟩ : Cursor).index := by decide
theorem witness_AddressesWithOnePhysicalIndexAreOneLocation :
    (mem28 []).phys 0x10#32 = (mem28 []).phys 0x10000010#32 := by decide
theorem witness_CanonicalMemoriesWithEqualBytesAreEqual :
    mem16.wf = true ∧ (mem16.set 3 3#8).wf = true ∧ mem16.SameContents (mem16.set 3 3#8) :=
  ⟨by decide, by decide, ⟨by decide, fun q => by rw [show mem16.set 3 3#8 = mem16 by decide]⟩⟩
/-- Two values that agree below the width and differ above it. -/
theorem witness_RegisterSetterIsAMaskedMerge :
    (RegName.gpr .A ≠ RegName.ip) ∧
    ∀ i, i < 8 * widthBytes .w8 → (0xAABBCCDD#32 : Word).getLsbD i = (0x000000DD#32 : Word).getLsbD i := by decide
theorem witness_HaltHasNoEffectButTheAdvanceOfIp :
    (st 1#32 0 0 0 0xFFFFFFFF#32 [] [0x00#8]).mem.byteAt 0xFFFFFFFF#32 = 0x00#8 ∧
    decode (st 1#32 0 0 0 0xFFFFFFFF#32 [] [0x00#8]).mem 0xFFFFFFFF#32 = .ok .halt 1#32 := by decide
/-- Two addresses of one byte. -/
theorem witness_MovMM8CopiesOneByte : State.reset.mem.phys 5#32 = State.reset.mem.phys 0x10000005#32 := by decide
/-- An instruction that overwrites its own first byte (here MOV.RM8 to the address it stands at). -/
theorem witness_StepRunsTheDecodedInstruction :
    let s := st 0x77#32 0 0 0 0x40#32 [] [0x01#8, 0x40#8, 0x00#8, 0x40#8, 0#8, 0#8, 0#8]
    decode s.mem s.ip = .ok (.movRM8 .A 0x40#32) 7#32 ∧ s.mem.Holds s.ip (encodeWith .zero (.movRM8 .A 0x40#32)) := by
  unfold Memory.Holds; decide
theorem witness_DecodeErrorChangesNothingAndRepeats :
    let s := st 1#32 0 0 0 0x20#32 [] [0x05#8]
    decode s.mem s.ip = .error (.invalidGroup 0x05#8) := by decide
theorem witness_EveryStepAdvancesIpByTheLength :
    ∃ t, step (st 0 0 0 0 0xFFFFFFFC#32 [] [0x01#8, 0x00#8, 0x00#8, 0x01#8]) = .next t := ⟨_, rfl⟩
/-- A store of `0x00`, and one of `0x05`, to the byte after the instruction. -/
theorem witness_NextFetchSeesTheStoredByte :
    let s := st 0x00#32 0x05#32 0 0 0 [] (encode (.movRM8 .A 7#32))
    let t := st 0x00#32 0x05#32 0 0 0 [] (encode (.movRM8 .B 0x10000007#32))
    s.mem.Holds s.ip (encode (.movRM8 .A 7#32)) ∧ s.mem.phys 7#32 = s.mem.phys (s.ip + 7#32) ∧
    (s.reg (.gpr .A)).extractLsb' 0 8 = 0x00#8 ∧
    t.mem.Holds t.ip (encode (.movRM8 .B 0x10000007#32)) ∧ t.mem.phys 0x10000007#32 = t.mem.phys (t.ip + 7#32) ∧
    1 < ((t.reg (.gpr .B)).extractLsb' 0 8).toNat := by
  unfold Memory.Holds; decide
theorem witness_EveryStepKeepsMemoryCanonical :
    (st 0x1#32 0 0 0 0 [] (encode (.movRM8 .A 0x20#32))).Inv ∧
    ∃ t, step (st 0x1#32 0 0 0 0 [] (encode (.movRM8 .A 0x20#32))) = .next t :=
  ⟨by unfold State.Inv; decide, ⟨_, rfl⟩⟩
theorem witness_NoInstructionReadsOrWritesFlags : ∃ t, exec (.movRR .A .B) State.reset = .next t := ⟨_, rfl⟩
/-- An image with a repeated index, an index that nothing lists, and a canonical state. -/
theorem witness_ConstructionHoldsInitAndReachesEveryState :
    let n : Init := { a := 0, b := 0, x := 0, y := 0, ip := 0, flags := ⟨8, 0x5A#8⟩, size := ⟨0⟩, image := [(1, 7#8), (5, 9#8)] }
    (∀ c ∈ n.image, c.1 % n.size.bytes ≠ 2) ∧ n.image = [(1, 7#8)] ++ (5, 9#8) :: [] ∧
    (∀ d ∈ ([] : List Host.Cell), d.1 % n.size.bytes ≠ 5 % n.size.bytes) ∧ (State.ofInit n).mem.get 1 = 9#8 := by decide
/-- Two states with the same contents, one with a memory list that is not in canonical form. -/
theorem witness_StepsDependOnContentsAlone :
    State.SameContents State.reset { State.reset with mem := ⟨Config.defaultMemSize, [(5, 0#8)]⟩ } := by
  refine ⟨rfl, rfl, rfl, rfl, rfl, rfl, rfl, fun q => ?_⟩
  simp only [Memory.byteAt, Memory.get, State.reset, Memory.empty, cellsLookup]
  split <;> rfl
/-- A run that ends in HALT, and one that ends in an error, both in the first cycle. -/
theorem witness_RunToHaltEndsOnePastAHaltByte :
    runToHalt 1 State.reset = .halted { State.reset with ip := 1#32 } ∧
    runToHalt 1 (st 0 0 0 0 0 [] [0x05#8]) = .error (st 0 0 0 0 0 [] [0x05#8]) (.invalidGroup 0x05#8) := by decide

end Sys2Proof.Machine.Tests
end

section
/-! SUPPORT. The state's two rules: FLAGS is inert (R27), shown by commuting every operation with the
replacement of the flags container, and the width-qualified register setter is a masked merge (R22, R25). -/

namespace Sys2Proof.Machine

/-! ## Replacing the flags container commutes with every operation -/

/-- The same state with another flags container in it. -/
def State.withFlags (s : State) (f : FlagSet) : State := { s with flags := f }

@[simp] theorem State.withFlags_reg (s : State) (f : FlagSet) (r : RegName) :
    (s.withFlags f).reg r = s.reg r := by rcases r with ⟨_ | _ | _ | _⟩ | _ <;> rfl

theorem State.withFlags_setReg (s : State) (f : FlagSet) (r : RegName) (w : Width) (v : Word) :
    (s.withFlags f).setReg r w v = (s.setReg r w v).withFlags f := by
  rcases r with ⟨_ | _ | _ | _⟩ | _ <;> rfl

theorem State.withFlags_dstMem (s : State) (f : FlagSet) (w : Width) (a v : Word) :
    (s.withFlags f).dstMem w a v = (s.dstMem w a v).withFlags f := rfl

theorem State.withFlags_advanceIp (s : State) (f : FlagSet) (d : Word) :
    (s.withFlags f).advanceIp d = (s.advanceIp d).withFlags f := State.withFlags_setReg ..

theorem State.withFlags_storeReg (s : State) (f : FlagSet) (w : Width) (src : Reg) (a : Word) :
    (s.withFlags f).storeReg w src a = (s.storeReg w src a).withFlags f := by
  simp only [State.storeReg, State.srcReg, State.withFlags_reg, State.withFlags_dstMem]

theorem State.withFlags_loadReg (s : State) (f : FlagSet) (w : Width) (a : Word) (dst : Reg) :
    (s.withFlags f).loadReg w a dst = (s.loadReg w a dst).withFlags f := State.withFlags_setReg ..

theorem State.withFlags_copyMem (s : State) (f : FlagSet) (w : Width) (a b : Word) :
    (s.withFlags f).copyMem w a b = (s.copyMem w a b).withFlags f := rfl

theorem exec_withFlags (i : Instr) (s : State) (f : FlagSet) :
    exec i (s.withFlags f) = mapNext (·.withFlags f) (exec i s) := by
  cases i with
  | halt => rfl
  | movRR src dst =>
    change Host.Outcome.next _ = Host.Outcome.next _
    rw [State.withFlags_reg, State.withFlags_setReg]
  | movRM8 | movRM16 | movRM32 => exact congrArg Host.Outcome.next (State.withFlags_storeReg ..)
  | movMR8 | movMR16 | movMR32 => exact congrArg Host.Outcome.next (State.withFlags_loadReg ..)
  | movMM8 | movMM16 | movMM32 => exact congrArg Host.Outcome.next (State.withFlags_copyMem ..)

theorem step_withFlags (s : State) (f : FlagSet) :
    step (s.withFlags f) = mapNext (·.withFlags f) (step s) := by
  have hf : decode (s.withFlags f).mem (s.withFlags f).ip = decode s.mem s.ip := rfl
  cases hd : decode s.mem s.ip with
  | error e => rw [step_of_error hd, step_of_error (hf.trans hd), mapNext]
  | ok i d => rw [step_of_ok hd, step_of_ok (hf.trans hd), State.withFlags_advanceIp, exec_withFlags]

theorem stateAfter_withFlags (s : State) (f : FlagSet) (o : Outcome) :
    stateAfter (s.withFlags f) (mapNext (·.withFlags f) o) = (stateAfter s o).withFlags f := by
  cases o <;> rfl

theorem Call.apply_withFlags (s : State) (f : FlagSet) (c : Call) :
    c.apply (s.withFlags f) = (c.apply s).withFlags f := by
  cases c with
  | cycle => simp only [Call.apply, Machine.cycle, step_withFlags, stateAfter_withFlags]
  | execute i => simp only [Call.apply, Machine.execute, exec_withFlags, stateAfter_withFlags]
  | snapshot => rfl

theorem runCalls_withFlags (s : State) (f : FlagSet) (cs : List Call) :
    runCalls (s.withFlags f) cs = (runCalls s cs).withFlags f := by
  induction cs generalizing s with
  | nil => rfl
  | cons c cs ih =>
    calc runCalls (s.withFlags f) (c :: cs) = runCalls ((c.apply s).withFlags f) cs :=
          congrArg (runCalls · cs) (Call.apply_withFlags s f c)
      _ = (runCalls s (c :: cs)).withFlags f := ih (c.apply s)

/-- The next state of an instruction is the state before it, one register set, or one value stored, and none
of the three touches FLAGS. -/
theorem exec_next_flags {i : Instr} {s t : State} (h : exec i s = .next t) : t.flags = s.flags := by
  rcases exec_cases i s with hn | ⟨r, w, v, hn⟩ | ⟨w, a, v, hn⟩ <;> rw [hn] at h <;> cases h
  · rfl
  · exact State.setReg_flags ..
  · exact State.dstMem_flags ..

/-- Settles O42: replacing the flags container commutes with every instruction, so with every cycle and, by
induction on the calls, with every sequence of host calls. -/
theorem noInstructionReadsOrWritesFlags : Obligations.NoInstructionReadsOrWritesFlags :=
  ⟨exec_withFlags, fun _ _ _ => exec_next_flags, step_withFlags, runCalls_withFlags⟩

/-! ## The masked merge of the register setter -/

theorem mergeWidth_w8 (old v : Word) :
    mergeWidth .w8 old v = (old &&& 0xFFFFFF00#32) ||| (v &&& 0x000000FF#32) := rfl

theorem mergeWidth_w16 (old v : Word) :
    mergeWidth .w16 old v = (old &&& 0xFFFF0000#32) ||| (v &&& 0x0000FFFF#32) := rfl

/-- The mask of a width has exactly the bits below the width (R9). -/
theorem getLsbD_widthMask (w : Width) {i : Nat} (hi : i < 32) :
    (widthMask w).getLsbD i = decide (i < 8 * widthBytes w) := by
  revert i; cases w <;> decide

/-- Words that agree below a width are equal under its mask. -/
theorem and_widthMask_congr {w : Width} {v v' : Word}
    (h : ∀ i, i < 8 * widthBytes w → v.getLsbD i = v'.getLsbD i) : v &&& widthMask w = v' &&& widthMask w := by
  apply BitVec.eq_of_getLsbD_eq
  intro i hi
  rw [BitVec.getLsbD_and, BitVec.getLsbD_and, getLsbD_widthMask w hi]
  by_cases hw : i < 8 * widthBytes w
  · rw [h i hw]
  · simp [hw]

/-- The setter looks at its value under the mask only (R25). -/
theorem State.setReg_congr (s : State) (r : RegName) {w : Width} {v v' : Word}
    (h : v &&& widthMask w = v' &&& widthMask w) : s.setReg r w v = s.setReg r w v' := by
  have hm : ∀ old, mergeWidth w old v = mergeWidth w old v' := fun old => by rw [mergeWidth, h, mergeWidth]
  rcases r with ⟨_ | _ | _ | _⟩ | _ <;> simp only [State.setReg, hm]

/-- Settles O20: the register set holds the masked merge, every other field is as it was, and the merge looks
at the masked value only. -/
theorem registerSetterIsAMaskedMerge : Obligations.RegisterSetterIsAMaskedMerge := by
  intro s r v
  refine ⟨?_, ?_, ?_, fun w => ⟨?_, State.setReg_flags .., State.setReg_mem .., ?_⟩⟩
  · rw [State.reg_setReg_self, mergeWidth_w8]
  · rw [State.reg_setReg_self, mergeWidth_w16]
  · rw [State.reg_setReg_self, mergeWidth_w32]
  · exact fun q hq => State.reg_setReg_ne s hq w v
  · exact fun v' h => State.setReg_congr s r (and_widthMask_congr h)

end Sys2Proof.Machine
end

section
/-! SUPPORT. Bytes of memory as words: an accumulation of bytes, lowest first, is their concatenation, for
`MemRead` (R43) and, since a cursor's read from an index is `MemRead` at it, for the cursor (R49, R50). -/

namespace Sys2Proof.Machine

/-! ## An accumulation of bytes is their concatenation -/

/-- Putting byte k above the 8k bits gathered so far appends it to them (R9, R10). -/
theorem setWidth_or_byteInWord {n k : Nat} (hn : n = 8 * k) (v : BitVec n) (b : Byte) :
    v.setWidth 32 ||| byteInWord b k = (b ++ v).setWidth 32 := by
  subst hn
  apply BitVec.eq_of_getLsbD_eq
  intro i hi
  simp only [byteInWord, BitVec.getLsbD_or, BitVec.getLsbD_shiftLeft, BitVec.getLsbD_setWidth,
    BitVec.getLsbD_append, hi, decide_true, Bool.true_and]
  by_cases h : i < 8 * k
  · simp [h]
  · have hv : v.getLsbD i = false := BitVec.getLsbD_of_ge v i (by omega)
    have hs : i - 8 * k < 32 := by omega
    simp [h, hv, hs]

theorem Memory.read_one (m : Memory) (a : Word) :
    m.read a 1 = (m.byteAt (byteAddr a 0)).setWidth 32 := by
  simp [Memory.read, byteInWord]

theorem Memory.read_two (m : Memory) (a : Word) :
    m.read a 2 = (m.byteAt (byteAddr a 1) ++ m.byteAt (byteAddr a 0)).setWidth 32 := by
  rw [Memory.read, Memory.read_one, setWidth_or_byteInWord (n := 8) (k := 1) rfl]

theorem Memory.read_four (m : Memory) (a : Word) :
    m.read a 4 = m.byteAt (byteAddr a 3) ++ m.byteAt (byteAddr a 2) ++ m.byteAt (byteAddr a 1) ++
      m.byteAt (byteAddr a 0) := by
  rw [Memory.read, Memory.read, Memory.read_two, setWidth_or_byteInWord (n := 16) (k := 2) rfl,
    setWidth_or_byteInWord (n := 24) (k := 3) rfl, BitVec.setWidth_eq, BitVec.append_assoc, BitVec.append_assoc,
    BitVec.cast_eq, BitVec.cast_eq]

/-- Settles O15: one byte is appended above the others at each address, and byte k of the read is the one at
`phys(addr +32 k)` by definition. -/
theorem memReadAssemblesLowByteFirst : Obligations.MemReadAssemblesLowByteFirst :=
  fun m a => ⟨m.read_one a, m.read_two a, m.read_four a⟩

/-! ## A cursor's read from an index -/

/-- An index read as an address selects, k bytes on, the byte of the array k places on from the index. -/
theorem Memory.byteAt_byteAddr_ofNat (m : Memory) (i k : Nat) :
    m.byteAt (byteAddr (BitVec.ofNat 32 i) k) = m.get ((i + k) % m.size.bytes) := by
  have hi : m.phys (BitVec.ofNat 32 i) = i % m.size.bytes := by
    rw [Memory.phys, BitVec.toNat_ofNat, Nat.mod_mod_of_dvd _ m.size.bytes_dvd]
  rw [Memory.byteAt, Memory.phys_byteAddr, hi, Nat.mod_add_mod]

/-- A cursor's n-byte read is `MemRead` at its index, wherever the index stands (R50). -/
theorem Cursor.bytesLE_eq_read (m : Memory) (i n : Nat) :
    Cursor.bytesLE m i n = m.read (BitVec.ofNat 32 i) n := by
  induction n with
  | zero => rfl
  | succ n ih => rw [Cursor.bytesLE, Memory.read, ih, Memory.byteAt_byteAddr_ofNat]

theorem Cursor.wrapped_of_lt {m : Memory} {c : Cursor} (h : c.index < m.size.bytes) :
    c.wrapped m = c.index := if_neg (Nat.not_le.2 h)

theorem Cursor.wrapped_of_le {m : Memory} {c : Cursor} (h : m.size.bytes ≤ c.index) :
    c.wrapped m = 0 := if_pos h

theorem Cursor.next8_of_lt {m : Memory} {c : Cursor} (h : c.index < m.size.bytes) :
    c.next8 m = (m.get c.index, c.advance m 1) := by
  rw [Cursor.next8, Cursor.wrapped_of_lt h, Cursor.advance]

/-- The array has more than one byte, so the index after a read of byte 0 is 1. -/
theorem Cursor.next8_of_le {m : Memory} {c : Cursor} (h : m.size.bytes ≤ c.index) :
    c.next8 m = (m.get 0, { index := 1, travelled := c.travelled + 1 }) := by
  have h1 : (0 + 1) % m.size.bytes = 1 := Nat.mod_eq_of_lt (by have := m.size.four_le_bytes; omega)
  rw [Cursor.next8, Cursor.wrapped_of_le h, h1]

theorem Cursor.next16_eq (m : Memory) (c : Cursor) :
    c.next16 m = (m.get ((c.index + 1) % m.size.bytes) ++ m.get ((c.index + 0) % m.size.bytes),
      c.advance m 2) := by
  rw [Cursor.next16, Cursor.bytesLE_eq_read, Memory.read_two, BitVec.setWidth_setWidth_of_le _ (by decide),
    BitVec.setWidth_eq, Memory.byteAt_byteAddr_ofNat, Memory.byteAt_byteAddr_ofNat]

theorem Cursor.next32_eq (m : Memory) (c : Cursor) :
    c.next32 m = (m.get ((c.index + 3) % m.size.bytes) ++ m.get ((c.index + 2) % m.size.bytes) ++
      m.get ((c.index + 1) % m.size.bytes) ++ m.get ((c.index + 0) % m.size.bytes), c.advance m 4) := by
  rw [Cursor.next32, Cursor.bytesLE_eq_read, Memory.read_four]
  simp only [Memory.byteAt_byteAddr_ofNat]

theorem Cursor.advance_index_lt (m : Memory) (c : Cursor) (n : Nat) :
    (c.advance m n).index < m.size.bytes := Nat.mod_lt _ m.size.bytes_pos

/-- Settles O13: the two multi-byte reads are `MemRead` at the index, and every read leaves an index reduced
modulo MEM_SIZE, as the start is. -/
theorem cursorReadsWrapEveryByte : Obligations.CursorReadsWrapEveryByte := by
  intro m p c
  have h8 : (c.next8 m).2.index < m.size.bytes := Nat.mod_lt _ m.size.bytes_pos
  exact ⟨rfl, m.phys_lt p, Cursor.next8_of_lt, Cursor.next8_of_le, c.next16_eq m, c.next32_eq m,
    h8, c.advance_index_lt m 2, c.advance_index_lt m 4⟩

end Sys2Proof.Machine
end

section
/-! SUPPORT. The encoding rules R61, R63 and R65, field by field: the two bits of each code, then what the
decoder answers for a group byte, for a shape and for a register-id byte. -/

namespace Sys2Proof

open Sys2Proof.Machine

/-! ## The codes of the move-group byte and the register-id byte -/

theorem shapeOf_eq_regToReg {mg : Byte} : shapeOf mg = .regToReg ↔ mg.extractLsb' 6 2 = 0#2 := by
  revert mg; decide

theorem shapeOf_eq_regToMem {mg : Byte} : shapeOf mg = .regToMem ↔ mg.extractLsb' 6 2 = 1#2 := by
  revert mg; decide

theorem shapeOf_eq_memToReg {mg : Byte} : shapeOf mg = .memToReg ↔ mg.extractLsb' 6 2 = 2#2 := by
  revert mg; decide

/-- The shape of a move-group byte is told from its two shape bits alone (R62). -/
theorem shapeOf_congr {b c : Byte} (h : b.extractLsb' 6 2 = c.extractLsb' 6 2) : shapeOf b = shapeOf c := by
  rw [shapeOf, shapeOf, h]

theorem widthOf_of_code_zero {mg : Byte} (h : mg.extractLsb' 4 2 = 0#2) : widthOf mg = .w8 := by
  rw [widthOf, h]; rfl

theorem widthOf_of_code_one {mg : Byte} (h : mg.extractLsb' 4 2 = 1#2) : widthOf mg = .w16 := by
  rw [widthOf, h]; rfl

theorem widthOf_of_code_two {mg : Byte} (h : mg.extractLsb' 4 2 = 2#2) : widthOf mg = .w32 := by
  rw [widthOf, h]; rfl

theorem widthOf_of_code_three {mg : Byte} (h : mg.extractLsb' 4 2 = 3#2) : widthOf mg = .w32 := by
  rw [widthOf, h]; rfl

/-- Every byte from 0 to 3 is the id of a register (R65). -/
theorem exists_eq_regId {b : Byte} (h : b.toNat ≤ 3) : ∃ r, b = regId r := by
  cases hr : regOfId b with
  | none => exact absurd (regOfId_eq_none.1 hr) (by omega)
  | some r => exact ⟨r, regOfId_eq_some.1 hr⟩

@[simp] theorem instrWidth?_halt : instrWidth? .halt = none := rfl

@[simp] theorem instrWidth?_mkRegToMem (w : Width) (src : Reg) (addr : Word) :
    instrWidth? (mkRegToMem w src addr) = some w := by cases w <;> rfl

@[simp] theorem instrWidth?_mkMemToReg (w : Width) (addr : Word) (dst : Reg) :
    instrWidth? (mkMemToReg w addr dst) = some w := by cases w <;> rfl

@[simp] theorem instrWidth?_mkMemToMem (w : Width) (a b : Word) :
    instrWidth? (mkMemToMem w a b) = some w := by cases w <;> rfl

/-! ## The group byte -/

theorem decode_of_group_zero {m : Memory} {p : Word} (h0 : m.instrByte p 0 = 0x00#8) :
    decode m p = .ok .halt 1#32 := by
  rw [decode_eq_stream, decodeStream, if_pos h0]

theorem decode_of_group_one {m : Memory} {p : Word} (h0 : m.instrByte p 0 = 0x01#8) :
    decode m p = decodeMove m ((Cursor.start m p).next8 m).2 := by
  have hg : ((Cursor.start m p).next8 m).1 = 0x01#8 := (Cursor.at_start m p).next8_fst.trans h0
  simp only [decode, hg]
  rfl

theorem decode_of_group_other {m : Memory} {p : Word} (h0 : m.instrByte p 0 ≠ 0x00#8)
    (h1 : m.instrByte p 0 ≠ 0x01#8) : decode m p = .error (.invalidGroup (m.instrByte p 0)) := by
  rw [decode_eq_stream, decodeStream, if_neg h0, if_neg h1]

/-- The Move sub-decoder fails on a register id only: every shape is defined (R62, R71). -/
theorem decodeMove_error {m : Memory} {c : Cursor} {e : DecodeError} (h : decodeMove m c = .error e) :
    ∃ operand value, e = .invalidRegisterId operand value := by
  simp only [decodeMove] at h
  split at h
  case h_1 =>
    simp only [decodeRegToReg] at h
    split at h
    · cases h; exact ⟨_, _, rfl⟩
    · split at h <;> cases h
      exact ⟨_, _, rfl⟩
  case h_2 =>
    simp only [decodeRegToMem] at h
    split at h <;> cases h
    exact ⟨_, _, rfl⟩
  case h_3 =>
    simp only [decodeMemToReg] at h
    split at h <;> cases h
    exact ⟨_, _, rfl⟩
  case h_4 => cases h

/-- HALT is decoded from the group byte `0x00` alone (R61): it has no width, and is not MOV.RR. -/
theorem group_zero_of_decode_halt {m : Memory} {p d : Word} (h : decode m p = .ok .halt d) :
    m.instrByte p 0 = 0x00#8 := by
  rcases decode_ok_cases h with
    ⟨h0, -⟩ | ⟨-, ⟨-, _, _, -, -, hi, -⟩ | ⟨-, _, -, hi, -⟩ | ⟨-, _, -, hi, -⟩ | ⟨-, hi, -⟩⟩
  · exact h0
  · cases hi
  all_goals simpa using congrArg instrWidth? hi

/-- Settles O5: the two legal group bytes and any other, each by its own equation; the Move sub-decoder has
no HALT to give and no error but a register id's. -/
theorem groupByteSelectsHaltMoveOrError : Obligations.GroupByteSelectsHaltMoveOrError := by
  intro m p
  refine ⟨decode_of_group_zero, fun h1 => ⟨decode_of_group_one h1, fun d hd => ?_, fun v hv => ?_⟩, fun h2 => ?_⟩
  · have h0 := group_zero_of_decode_halt hd
    exact absurd (h0.symm.trans h1) (by decide)
  · obtain ⟨operand, value, he⟩ := decodeMove_error ((decode_of_group_one h1).symm.trans hv)
    cases he
  · exact decode_of_group_other (fun h => by simp [h] at h2) (fun h => by simp [h] at h2)

/-! ## The width code -/

/-- A decoded Move of shape 1, 2 or 3 has the width its move-group byte codes (R63). -/
theorem decode_ok_width {m : Memory} {p : Word} {i : Instr} {d : Word} (h : decode m p = .ok i d)
    (h1 : m.instrByte p 0 = 0x01#8) (hs : shapeOf (m.instrByte p 1) ≠ .regToReg) :
    instrWidth? i = some (widthOf (m.instrByte p 1)) := by
  rcases decode_ok_cases h with ⟨h0, -, -⟩ | ⟨-, ⟨hr, -⟩ | ⟨-, _, -, rfl, -⟩ | ⟨-, _, -, rfl, -⟩ | ⟨-, rfl, -⟩⟩
  · exact absurd (h0.symm.trans h1) (by decide)
  · exact absurd hr hs
  · exact instrWidth?_mkRegToMem ..
  · exact instrWidth?_mkMemToReg ..
  · exact instrWidth?_mkMemToMem ..

/-- Of the move-group byte the decoder looks at the shape and, but for shape 0, at the width (R62, R63). -/
theorem decode_congr_shape_width {m n : Memory} {p q : Word}
    (h : ∀ j, j < maxInstrBytes → j ≠ 1 → m.instrByte p j = n.instrByte q j)
    (hs : shapeOf (m.instrByte p 1) = shapeOf (n.instrByte q 1))
    (hw : shapeOf (m.instrByte p 1) = .regToReg ∨ widthOf (m.instrByte p 1) = widthOf (n.instrByte q 1)) :
    decode m p = decode n q := by
  have hf (j : Nat) (h2 : 2 ≤ j) (hj : j + 4 ≤ maxInstrBytes) :
      m.read (byteAddr p j) 4 = n.read (byteAddr q j) 4 :=
    fields_congr fun k hk => h _ (by omega) (by omega)
  rw [decode_eq_stream, decode_eq_stream]
  simp only [decodeStream, h 0 (by decide) (by decide), h 2 (by decide) (by decide),
    h 3 (by decide) (by decide), h 6 (by decide) (by decide), hf 2 (by decide) (by decide),
    hf 3 (by decide) (by decide), hf 6 (by decide) (by decide)]
  rcases hw with hr | hw
  · rw [← hs, hr]
  · rw [hs, hw]

/-- Width codes 2 and 3 are both 32 bits (R63). -/
theorem widthOf_moveGroup_two_three (ss : BitVec 2) (low : BitVec 4) :
    widthOf (moveGroup ss 2#2 low) = widthOf (moveGroup ss 3#2 low) :=
  (widthOf_of_code_two (moveGroup_width ..)).trans (widthOf_of_code_three (moveGroup_width ..)).symm

/-- Settles O6: a Move of shape 1 to 3 has the coded width, code 3 means the width of code 2, and shape 0 is
decoded without the width. -/
theorem widthCodeSelectsTheWidth : Obligations.WidthCodeSelectsTheWidth := by
  refine ⟨fun m p i d h1 hs h => ?_, fun m n p ss v w low _ hm hn hj hvw => ?_⟩
  · rw [decode_ok_width h h1 (mt shapeOf_eq_regToReg.1 hs)]
    exact ⟨fun hc => congrArg some (widthOf_of_code_zero hc), fun hc => congrArg some (widthOf_of_code_one hc),
      fun hc => congrArg some (widthOf_of_code_two hc), fun hc => congrArg some (widthOf_of_code_three hc)⟩
  · have hs : shapeOf (moveGroup ss v low) = shapeOf (moveGroup ss w low) :=
      shapeOf_congr ((moveGroup_shape ..).trans (moveGroup_shape ..).symm)
    apply decode_congr_shape_width hj <;> rw [hm, hn]
    · exact hs
    · rcases hvw with ⟨rfl, rfl⟩ | rfl
      · exact .inr (widthOf_moveGroup_two_three ss low)
      · exact .inl (shapeOf_eq_regToReg.2 (moveGroup_shape ..))

/-! ## The register-id bytes of each shape -/

section RegisterIds

variable {m : Memory} {p : Word}

theorem decode_regToReg (h1 : m.instrByte p 0 = 0x01#8) (hs : shapeOf (m.instrByte p 1) = .regToReg)
    {src dst : Reg} (h2 : m.instrByte p 2 = regId src) (h3 : m.instrByte p 3 = regId dst) :
    decode m p = .ok (.movRR src dst) 4#32 := by
  simp [decode_eq_stream, decodeStream, h1, hs, h2, h3]

/-- The source is checked first (R71; the spec's D8). -/
theorem decode_regToReg_invalid_src (h1 : m.instrByte p 0 = 0x01#8)
    (hs : shapeOf (m.instrByte p 1) = .regToReg) (h2 : 3 < (m.instrByte p 2).toNat) :
    decode m p = .error (.invalidRegisterId .src (m.instrByte p 2)) := by
  simp [decode_eq_stream, decodeStream, h1, hs, regOfId_eq_none.2 h2]

theorem decode_regToReg_invalid_dst (h1 : m.instrByte p 0 = 0x01#8)
    (hs : shapeOf (m.instrByte p 1) = .regToReg) {src : Reg} (h2 : m.instrByte p 2 = regId src)
    (h3 : 3 < (m.instrByte p 3).toNat) :
    decode m p = .error (.invalidRegisterId .dst (m.instrByte p 3)) := by
  simp [decode_eq_stream, decodeStream, h1, hs, h2, regOfId_eq_none.2 h3]

theorem decode_regToMem (h1 : m.instrByte p 0 = 0x01#8) (hs : shapeOf (m.instrByte p 1) = .regToMem)
    {src : Reg} (h2 : m.instrByte p 2 = regId src) : decode m p =
      .ok (mkRegToMem (widthOf (m.instrByte p 1)) src (m.read (byteAddr p 3) 4)) 7#32 := by
  simp [decode_eq_stream, decodeStream, h1, hs, h2]

theorem decode_regToMem_invalid_src (h1 : m.instrByte p 0 = 0x01#8)
    (hs : shapeOf (m.instrByte p 1) = .regToMem) (h2 : 3 < (m.instrByte p 2).toNat) :
    decode m p = .error (.invalidRegisterId .src (m.instrByte p 2)) := by
  simp [decode_eq_stream, decodeStream, h1, hs, regOfId_eq_none.2 h2]

theorem decode_memToReg (h1 : m.instrByte p 0 = 0x01#8) (hs : shapeOf (m.instrByte p 1) = .memToReg)
    {dst : Reg} (h6 : m.instrByte p 6 = regId dst) : decode m p =
      .ok (mkMemToReg (widthOf (m.instrByte p 1)) (m.read (byteAddr p 2) 4) dst) 7#32 := by
  simp [decode_eq_stream, decodeStream, h1, hs, h6]

theorem decode_memToReg_invalid_dst (h1 : m.instrByte p 0 = 0x01#8)
    (hs : shapeOf (m.instrByte p 1) = .memToReg) (h6 : 3 < (m.instrByte p 6).toNat) :
    decode m p = .error (.invalidRegisterId .dst (m.instrByte p 6)) := by
  simp [decode_eq_stream, decodeStream, h1, hs, regOfId_eq_none.2 h6]

end RegisterIds

/-- Settles O8: each shape's equations for a byte that is a register's id and for one that is not; with both
ids of shape 0 invalid it is the source that is reported. -/
theorem registerIdByteIsComparedWhole : Obligations.RegisterIdByteIsComparedWhole := by
  refine ⟨⟨rfl, rfl, rfl, rfl⟩, fun m p h1 => ⟨fun hb => ?_, fun hb => ?_, fun hb => ?_⟩⟩
  · have hs := shapeOf_eq_regToReg.2 hb
    refine ⟨fun _ _ => decode_regToReg h1 hs, fun h2 _ => decode_regToReg_invalid_src h1 hs h2, fun h2 h3 => ?_,
      fun h2 _ => .inl (decode_regToReg_invalid_src h1 hs h2)⟩
    obtain ⟨src, hsrc⟩ := exists_eq_regId h2
    exact decode_regToReg_invalid_dst h1 hs hsrc h3
  · have hs := shapeOf_eq_regToMem.2 hb
    exact ⟨fun _ h2 => ⟨_, _, decode_regToMem h1 hs h2⟩, decode_regToMem_invalid_src h1 hs⟩
  · have hs := shapeOf_eq_memToReg.2 hb
    exact ⟨fun _ h6 => ⟨_, _, decode_memToReg h1 hs h6⟩, decode_memToReg_invalid_dst h1 hs⟩

end Sys2Proof
end

section
/-! SUPPORT. The cycle, HALT and the snapshot: HALT does nothing but let IP advance (R83), `execute` has no
failure and no part in IP or FLAGS (R82), a failed decode changes nothing (R81), and what `snapshot` shows (R86). -/

namespace Sys2Proof

open Sys2Proof.Machine

/-! ## The HALT byte, and the decode as an option -/

theorem Machine.Memory.instrByte_zero (m : Memory) (p : Word) : m.instrByte p 0 = m.byteAt p :=
  congrArg m.byteAt (byteAddr_zero p)

/-- The byte `0x00` is HALT, of length 1 (R61, R83). -/
theorem decode_of_halt_byte {m : Memory} {p : Word} (h : m.byteAt p = 0x00#8) : decode m p = .ok .halt 1#32 :=
  decode_of_group_zero ((m.instrByte_zero p).trans h)

/-- The converse: no other byte is HALT, and HALT has no other length (R61, R83). -/
theorem halt_byte_of_decode {m : Memory} {p d : Word} (h : decode m p = .ok .halt d) :
    m.byteAt p = 0x00#8 ∧ d = 1#32 := by
  have hb : m.byteAt p = 0x00#8 := (m.instrByte_zero p).symm.trans (group_zero_of_decode_halt h)
  have hd : DecodeResult.ok .halt d = .ok .halt 1#32 := h.symm.trans (decode_of_halt_byte hb)
  exact ⟨hb, (DecodeResult.ok.inj hd).2⟩

theorem DecodeResult.instr?_eq_some {r : DecodeResult} {i : Instr} : r.instr? = some i ↔ ∃ d, r = .ok i d := by
  cases r <;> simp [DecodeResult.instr?]

theorem DecodeResult.instr?_eq_none {r : DecodeResult} : r.instr? = none ↔ ∃ e, r = .error e := by
  cases r <;> simp [DecodeResult.instr?]

end Sys2Proof

namespace Sys2Proof.Machine

/-! ## HALT -/

@[simp] theorem exec_halt (s : State) : exec .halt s = .next s := rfl

/-- A cycle at a HALT byte advances IP by 1 and does nothing else (R80, R83). -/
theorem step_of_halt_byte {s : State} (h : s.mem.byteAt s.ip = 0x00#8) :
    step s = .next { s with ip := s.ip + 1#32 } := by
  rw [step_of_ok (decode_of_halt_byte h), exec_halt, State.advanceIp_eq]

/-- Settles O22: HALT's meaning is the identity, the byte `0x00` and the decoded HALT determine each other,
and a cycle at that byte does nothing but advance IP. -/
theorem haltHasNoEffectButTheAdvanceOfIp : Obligations.HaltHasNoEffectButTheAdvanceOfIp :=
  ⟨exec_halt, fun _ _ _ => halt_byte_of_decode, fun _ h => ⟨decode_of_halt_byte h, step_of_halt_byte h⟩⟩

/-! ## `execute` on its own -/

/-- An instruction completes (R82): its next state is the state before it, one general register set, or one
value stored, and none of the three touches IP or FLAGS. -/
theorem exec_completes (i : Instr) (s : State) : ∃ t, exec i s = .next t ∧ SameIpFlags s t := by
  rcases exec_cases i s with h | ⟨r, w, v, h⟩ | ⟨w, a, v, h⟩
  · exact ⟨_, h, rfl, rfl⟩
  · exact ⟨_, h, State.setReg_gpr_ip .., State.setReg_flags ..⟩
  · exact ⟨_, h, State.dstMem_ip .., State.dstMem_flags ..⟩

/-- Replacing IP and FLAGS commutes with every instruction (R82). A general register is another field than IP
and FLAGS, whichever register it is, so once the operand registers are known the two states are built alike. -/
theorem exec_replace_ip_flags (i : Instr) (s : State) (ip : Word) (f : FlagSet) :
    exec i { s with ip := ip, flags := f } = mapNext (fun t => { t with ip := ip, flags := f }) (exec i s) := by
  cases i with
  | halt => rfl
  | movRR src dst => cases src <;> cases dst <;> rfl
  | movRM8 src addr | movRM16 src addr | movRM32 src addr => cases src <;> rfl
  | movMR8 addr dst | movMR16 addr dst | movMR32 addr dst => cases dst <;> rfl
  | movMM8 | movMM16 | movMM32 => rfl

/-- Settles O33: every instruction completes with IP and FLAGS as they were, and commutes with replacing
them. -/
theorem executeNeverFailsNorTouchesIpOrFlags : Obligations.ExecuteNeverFailsNorTouchesIpOrFlags :=
  fun i s ip f => ⟨exec_completes i s, exec_replace_ip_flags i s ip f⟩

/-! ## A failed decode -/

theorem State.response_of_error {s : State} {e : DecodeError} (h : decode s.mem s.ip = .error e) :
    s.response = .err e := by rw [State.response, h]

/-- A cycle whose decode fails returns the error and the state it found (R81). -/
theorem cycle_of_error {s : State} {e : DecodeError} (h : decode s.mem s.ip = .error e) :
    cycle s = (s, .err e) := by
  rw [cycle, step_of_error h, State.response_of_error h, stateAfter]

@[simp] theorem afterCycles_zero (s : State) : afterCycles s 0 = s := rfl

theorem afterCycles_succ (s : State) (k : Nat) : afterCycles s (k + 1) = afterCycles (cycle s).1 k := rfl

/-- A state that one cycle leaves as it is stays as it is through any number of cycles. -/
theorem afterCycles_of_fixed {s : State} (h : (cycle s).1 = s) (k : Nat) : afterCycles s k = s := by
  induction k with
  | zero => exact afterCycles_zero s
  | succ k ih => rw [afterCycles_succ, h, ih]

/-- Settles O35: the failed cycle's state is the one it found, so a retry meets the same bytes at the same IP
and fails in the same way. -/
theorem decodeErrorChangesNothingAndRepeats : Obligations.DecodeErrorChangesNothingAndRepeats := by
  intro s e h
  have hc : cycle s = (s, .err e) := cycle_of_error h
  have hk : ∀ k, afterCycles s k = s := afterCycles_of_fixed (congrArg Prod.fst hc)
  exact ⟨hc, fun k => ⟨hk k, (congrArg cycle (hk k)).trans hc⟩⟩

/-! ## The snapshot -/

/-- Settles O45: every field is copied, the next instruction is the decode at IP as an option, and the call
answers the state it was made in. -/
theorem snapshotShowsTheStateAndTheNextInstruction : Obligations.SnapshotShowsTheStateAndTheNextInstruction :=
  fun _ => ⟨⟨rfl, rfl, rfl, rfl, rfl, rfl, rfl⟩, fun _ => DecodeResult.instr?_eq_some,
    DecodeResult.instr?_eq_none, rfl, rfl⟩

end Sys2Proof.Machine
end

section
/-! SUPPORT. The encoder and the decoder undo each other (R60 to R77): the bytes of each form stand in memory
exactly where the decoder's fields have the values it names, and any bytes the decoder accepts are those of
the instruction it answers, with the ignored bits found in the move-group byte. -/

namespace Sys2Proof.Machine

/-! ## Bytes that stand in memory -/

theorem Memory.Holds.instrByte_eq {m : Memory} {p : Word} {bs : List Byte} (h : m.Holds p bs) {k : Nat}
    (hk : k < bs.length) : m.instrByte p k = bs[k] := h k hk

theorem Memory.holds_nil (m : Memory) (p : Word) : m.Holds p [] := fun _ h => absurd h (Nat.not_lt_zero _)

theorem Memory.holds_cons (m : Memory) (p : Word) (b : Byte) (bs : List Byte) :
    m.Holds p (b :: bs) ↔ m.instrByte p 0 = b ∧ m.Holds (byteAddr p 1) bs := by
  have hs (k : Nat) : m.byteAt (byteAddr (byteAddr p 1) k) = m.byteAt (byteAddr p (k + 1)) := by
    rw [byteAddr_byteAddr, Nat.add_comm]
  constructor
  · exact fun h => ⟨h 0 (Nat.succ_pos _), fun k hk => (hs k).trans (h (k + 1) (Nat.succ_lt_succ hk))⟩
  · rintro ⟨hb, hbs⟩ k hk
    cases k with
    | zero => exact hb
    | succ k => exact (hs k).symm.trans (hbs k (Nat.lt_of_succ_lt_succ hk))

theorem Memory.holds_byteAddr_cons (m : Memory) (p : Word) (j : Nat) (b : Byte) (bs : List Byte) :
    m.Holds (byteAddr p j) (b :: bs) ↔ m.instrByte p j = b ∧ m.Holds (byteAddr p (j + 1)) bs := by
  rw [Memory.holds_cons, Memory.instrByte, byteAddr_byteAddr, byteAddr_byteAddr, Nat.add_zero, Memory.instrByte]

/-- The bytes of an address stand exactly where the field reads as that address (R66). -/
theorem Memory.holds_byteAddr_addrBytes (m : Memory) (p : Word) (j : Nat) (a : Word) (bs : List Byte) :
    m.Holds (byteAddr p j) (addrBytes a ++ bs) ↔
      m.read (byteAddr p j) 4 = a ∧ m.Holds (byteAddr p (j + 4)) bs := by
  have hf : (m.instrByte p j = byteOf a 0 ∧ m.instrByte p (j + 1) = byteOf a 1 ∧
      m.instrByte p (j + 2) = byteOf a 2 ∧ m.instrByte p (j + 3) = byteOf a 3) ↔
      m.read (byteAddr p j) 4 = a := by
    constructor
    · rintro ⟨h0, h1, h2, h3⟩
      refine read_of_addrBytes fun k hk => ?_
      interval_cases k <;> assumption
    · rintro rfl
      simp [byteOf_read, byteAddr_byteAddr, Memory.instrByte]
  simp only [addrBytes, List.cons_append, List.nil_append, Memory.holds_byteAddr_cons, Nat.add_assoc,
    Nat.reduceAdd, ← hf, and_assoc]

end Sys2Proof.Machine

namespace Sys2Proof

open Sys2Proof.Machine

/-! ## The forms of an encoding, by shape and width -/

/-- The width code an encoding of a width has, given the ignored bits (R63). -/
def widthCode (g : IgnoredBits) : Width → BitVec 2
  | .w8 => 0#2
  | .w16 => 1#2
  | .w32 => wideCode g

theorem widthOf_moveGroup_widthCode (ss : BitVec 2) (g : IgnoredBits) (w : Width) :
    widthOf (moveGroup ss (widthCode g w) g.low) = w := by
  cases w with
  | w8 => exact widthOf_of_code_zero (moveGroup_width ..)
  | w16 => exact widthOf_of_code_one (moveGroup_width ..)
  | w32 =>
    have hw : ∀ wide : BitVec 1, (1#1 ++ wide : BitVec 2) = 2#2 ∨ (1#1 ++ wide : BitVec 2) = 3#2 := by decide
    rcases hw g.wide with h | h
    · exact widthOf_of_code_two ((moveGroup_width ..).trans h)
    · exact widthOf_of_code_three ((moveGroup_width ..).trans h)

theorem encodeWith_mkRegToMem (g : IgnoredBits) (w : Width) (src : Reg) (addr : Word) :
    encodeWith g (mkRegToMem w src addr) =
      0x01#8 :: moveGroup 1#2 (widthCode g w) g.low :: regId src :: (addrBytes addr ++ []) := by
  cases w <;> rfl

theorem encodeWith_mkMemToReg (g : IgnoredBits) (w : Width) (addr : Word) (dst : Reg) :
    encodeWith g (mkMemToReg w addr dst) =
      0x01#8 :: moveGroup 2#2 (widthCode g w) g.low :: (addrBytes addr ++ [regId dst]) := by
  cases w <;> rfl

theorem encodeWith_mkMemToMem (g : IgnoredBits) (w : Width) (a b : Word) :
    encodeWith g (mkMemToMem w a b) =
      0x01#8 :: moveGroup 3#2 (widthCode g w) g.low :: (addrBytes a ++ (addrBytes b ++ [])) := by
  cases w <;> rfl

@[simp] theorem length_mkRegToMem (w : Width) (src : Reg) (addr : Word) :
    (mkRegToMem w src addr).length = 7 := by cases w <;> rfl

@[simp] theorem length_mkMemToReg (w : Width) (addr : Word) (dst : Reg) :
    (mkMemToReg w addr dst).length = 7 := by cases w <;> rfl

@[simp] theorem length_mkMemToMem (w : Width) (a b : Word) : (mkMemToMem w a b).length = 10 := by
  cases w <;> rfl

section Forms

variable (m : Memory) (p : Word) (g : IgnoredBits)

theorem holds_halt : m.Holds p (encodeWith g .halt) ↔ m.instrByte p 0 = 0x00#8 := by
  rw [encodeWith, Memory.holds_cons]
  exact and_iff_left (m.holds_nil _)

theorem holds_movRR (src dst : Reg) : m.Holds p (encodeWith g (.movRR src dst)) ↔
    m.instrByte p 0 = 0x01#8 ∧ m.instrByte p 1 = moveGroup 0#2 g.rrWidth g.low ∧
      m.instrByte p 2 = regId src ∧ m.instrByte p 3 = regId dst := by
  rw [encodeWith, Memory.holds_cons]
  simp only [Memory.holds_byteAddr_cons, Memory.holds_nil, Nat.reduceAdd, and_true]

theorem holds_mkRegToMem (w : Width) (src : Reg) (addr : Word) :
    m.Holds p (encodeWith g (mkRegToMem w src addr)) ↔
      m.instrByte p 0 = 0x01#8 ∧ m.instrByte p 1 = moveGroup 1#2 (widthCode g w) g.low ∧
        m.instrByte p 2 = regId src ∧ m.read (byteAddr p 3) 4 = addr := by
  rw [encodeWith_mkRegToMem, Memory.holds_cons]
  simp only [Memory.holds_byteAddr_cons, Memory.holds_byteAddr_addrBytes, Memory.holds_nil, Nat.reduceAdd, and_true]

theorem holds_mkMemToReg (w : Width) (addr : Word) (dst : Reg) :
    m.Holds p (encodeWith g (mkMemToReg w addr dst)) ↔
      m.instrByte p 0 = 0x01#8 ∧ m.instrByte p 1 = moveGroup 2#2 (widthCode g w) g.low ∧
        m.read (byteAddr p 2) 4 = addr ∧ m.instrByte p 6 = regId dst := by
  rw [encodeWith_mkMemToReg, Memory.holds_cons]
  simp only [Memory.holds_byteAddr_cons, Memory.holds_byteAddr_addrBytes, Memory.holds_nil, Nat.reduceAdd, and_true]

theorem holds_mkMemToMem (w : Width) (a b : Word) :
    m.Holds p (encodeWith g (mkMemToMem w a b)) ↔
      m.instrByte p 0 = 0x01#8 ∧ m.instrByte p 1 = moveGroup 3#2 (widthCode g w) g.low ∧
        m.read (byteAddr p 2) 4 = a ∧ m.read (byteAddr p 6) 4 = b := by
  rw [encodeWith_mkMemToMem, Memory.holds_cons]
  simp only [Memory.holds_byteAddr_cons, Memory.holds_byteAddr_addrBytes, Memory.holds_nil, Nat.reduceAdd, and_true]

end Forms

/-! ## Decode of encode -/

theorem shapeOf_eq_memToMem {mg : Byte} : shapeOf mg = .memToMem ↔ mg.extractLsb' 6 2 = 3#2 := by
  revert mg; decide

theorem decode_memToMem {m : Memory} {p : Word} (h1 : m.instrByte p 0 = 0x01#8)
    (hs : shapeOf (m.instrByte p 1) = .memToMem) : decode m p =
      .ok (mkMemToMem (widthOf (m.instrByte p 1)) (m.read (byteAddr p 2) 4) (m.read (byteAddr p 6) 4)) 10#32 := by
  simp [decode_eq_stream, decodeStream, h1, hs]

section DecodeOfForm

variable {m : Memory} {p : Word} {g : IgnoredBits}

theorem decode_of_holds_mkRegToMem {w : Width} {src : Reg} {addr : Word}
    (h : m.Holds p (encodeWith g (mkRegToMem w src addr))) : decode m p = .ok (mkRegToMem w src addr) 7#32 := by
  obtain ⟨h0, h1, h2, h3⟩ := (holds_mkRegToMem ..).1 h
  rw [decode_regToMem h0 (shapeOf_eq_regToMem.2 (by rw [h1, moveGroup_shape])) h2, h1, h3,
    widthOf_moveGroup_widthCode]

theorem decode_of_holds_mkMemToReg {w : Width} {addr : Word} {dst : Reg}
    (h : m.Holds p (encodeWith g (mkMemToReg w addr dst))) : decode m p = .ok (mkMemToReg w addr dst) 7#32 := by
  obtain ⟨h0, h1, h2, h6⟩ := (holds_mkMemToReg ..).1 h
  rw [decode_memToReg h0 (shapeOf_eq_memToReg.2 (by rw [h1, moveGroup_shape])) h6, h1, h2,
    widthOf_moveGroup_widthCode]

theorem decode_of_holds_mkMemToMem {w : Width} {a b : Word}
    (h : m.Holds p (encodeWith g (mkMemToMem w a b))) : decode m p = .ok (mkMemToMem w a b) 10#32 := by
  obtain ⟨h0, h1, h2, h6⟩ := (holds_mkMemToMem ..).1 h
  rw [decode_memToMem h0 (shapeOf_eq_memToMem.2 (by rw [h1, moveGroup_shape])), h1, h2, h6,
    widthOf_moveGroup_widthCode]

/-- Settles O2: HALT, the register form and the three memory forms, each read back field by field. -/
theorem encodedInstructionDecodesToItself : Obligations.EncodedInstructionDecodesToItself := by
  intro m p g i h
  cases i with
  | halt => exact decode_of_group_zero ((holds_halt ..).1 h)
  | movRR src dst =>
    obtain ⟨h0, h1, h2, h3⟩ := (holds_movRR ..).1 h
    exact decode_regToReg h0 (shapeOf_eq_regToReg.2 (by rw [h1, moveGroup_shape])) h2 h3
  | movRM8 => exact decode_of_holds_mkRegToMem (w := .w8) h
  | movRM16 => exact decode_of_holds_mkRegToMem (w := .w16) h
  | movRM32 => exact decode_of_holds_mkRegToMem (w := .w32) h
  | movMR8 => exact decode_of_holds_mkMemToReg (w := .w8) h
  | movMR16 => exact decode_of_holds_mkMemToReg (w := .w16) h
  | movMR32 => exact decode_of_holds_mkMemToReg (w := .w32) h
  | movMM8 => exact decode_of_holds_mkMemToMem (w := .w8) h
  | movMM16 => exact decode_of_holds_mkMemToMem (w := .w16) h
  | movMM32 => exact decode_of_holds_mkMemToMem (w := .w32) h

end DecodeOfForm

/-! ## Encode of decode -/

/-- The values a move-group byte has for the bits the decoder ignores (R64, R75). -/
def ignoredBitsOf (mg : Byte) : IgnoredBits where
  low := mg.extractLsb' 0 4
  wide := mg.extractLsb' 4 1
  rrWidth := mg.extractLsb' 4 2

/-- A move-group byte of shape 0 is the encoder's, with the byte's own ignored bits. -/
theorem moveGroup_ignoredBitsOf_regToReg {mg : Byte} (h : mg.extractLsb' 6 2 = 0#2) :
    moveGroup 0#2 (ignoredBitsOf mg).rrWidth (ignoredBitsOf mg).low = mg := by
  rw [← h]; exact (moveGroup_split mg).symm

/-- A move-group byte of shape 1 to 3 is the encoder's for its width, with the byte's own ignored bits. -/
theorem moveGroup_ignoredBitsOf {mg : Byte} {ss : BitVec 2} (h : mg.extractLsb' 6 2 = ss) :
    moveGroup ss (widthCode (ignoredBitsOf mg) (widthOf mg)) (ignoredBitsOf mg).low = mg := by
  subst h; revert mg; decide

/-- Settles O3: in each case of a successful decode the ignored bits are those of the move-group byte. -/
theorem decodedBytesAreAnEncoding : Obligations.DecodedBytesAreAnEncoding := by
  intro m p i d h
  rcases decode_ok_cases h with ⟨h0, rfl, rfl⟩ | ⟨h0, ⟨hs, src, dst, h2, h3, rfl, rfl⟩ |
    ⟨hs, src, h2, rfl, rfl⟩ | ⟨hs, dst, h6, rfl, rfl⟩ | ⟨hs, rfl, rfl⟩⟩
  · exact ⟨rfl, .zero, (holds_halt ..).2 h0⟩
  · have hg := moveGroup_ignoredBitsOf_regToReg (shapeOf_eq_regToReg.1 hs)
    exact ⟨rfl, ignoredBitsOf _, (holds_movRR ..).2 ⟨h0, hg.symm, h2, h3⟩⟩
  · have hg := moveGroup_ignoredBitsOf (shapeOf_eq_regToMem.1 hs)
    exact ⟨by rw [length_mkRegToMem], ignoredBitsOf _, (holds_mkRegToMem ..).2 ⟨h0, hg.symm, h2, rfl⟩⟩
  · have hg := moveGroup_ignoredBitsOf (shapeOf_eq_memToReg.1 hs)
    exact ⟨by rw [length_mkMemToReg], ignoredBitsOf _, (holds_mkMemToReg ..).2 ⟨h0, hg.symm, rfl, h6⟩⟩
  · have hg := moveGroup_ignoredBitsOf (shapeOf_eq_memToMem.1 hs)
    exact ⟨by rw [length_mkMemToMem], ignoredBitsOf _, (holds_mkMemToMem ..).2 ⟨h0, hg.symm, rfl, rfl⟩⟩

end Sys2Proof
end

section
/-! SUPPORT. What the decoder accepts and what it rejects, from its equations for each shape: the illegal
encodings (R75, R111, R112), the ignored bits (R64), the lengths (R76), the opcode table (R79), the
independent check on bytes, and the reduction of the start address (R41, R48). -/

namespace Sys2Proof

open Sys2Proof.Machine

/-! ## The illegal encodings -/

theorem shapeBits_cases (ss : BitVec 2) : ss = 0#2 ∨ ss = 1#2 ∨ ss = 2#2 ∨ ss = 3#2 := by
  revert ss; decide

/-- A move encoding fails on a register-id byte: shape 0 on the source or, if that is legal, the destination;
shape 1 on the source; shape 2 on the destination; shape 3 never (R67 to R70, R112). -/
theorem decode_move_error_cases {m : Memory} {p : Word} {e : DecodeError} (h0 : m.instrByte p 0 = 0x01#8)
    (h : decode m p = .error e) :
    ((m.instrByte p 1).extractLsb' 6 2 = 0#2 ∧ 3 < (m.instrByte p 2).toNat ∧
      e = .invalidRegisterId .src (m.instrByte p 2)) ∨
    ((m.instrByte p 1).extractLsb' 6 2 = 0#2 ∧ (m.instrByte p 2).toNat ≤ 3 ∧ 3 < (m.instrByte p 3).toNat ∧
      e = .invalidRegisterId .dst (m.instrByte p 3)) ∨
    ((m.instrByte p 1).extractLsb' 6 2 = 1#2 ∧ 3 < (m.instrByte p 2).toNat ∧
      e = .invalidRegisterId .src (m.instrByte p 2)) ∨
    ((m.instrByte p 1).extractLsb' 6 2 = 2#2 ∧ 3 < (m.instrByte p 6).toNat ∧
      e = .invalidRegisterId .dst (m.instrByte p 6)) := by
  have err {r : DecodeResult} (hr : decode m p = r) : r = .error e := hr.symm.trans h
  rcases shapeBits_cases ((m.instrByte p 1).extractLsb' 6 2) with hb | hb | hb | hb
  · have hs := shapeOf_eq_regToReg.2 hb
    rcases Nat.lt_or_ge 3 (m.instrByte p 2).toNat with h2 | h2
    · cases err (decode_regToReg_invalid_src h0 hs h2)
      exact .inl ⟨hb, h2, rfl⟩
    obtain ⟨src, hsrc⟩ := exists_eq_regId h2
    rcases Nat.lt_or_ge 3 (m.instrByte p 3).toNat with h3 | h3
    · cases err (decode_regToReg_invalid_dst h0 hs hsrc h3)
      exact .inr (.inl ⟨hb, h2, h3, rfl⟩)
    · obtain ⟨dst, hdst⟩ := exists_eq_regId h3
      cases err (decode_regToReg h0 hs hsrc hdst)
  · have hs := shapeOf_eq_regToMem.2 hb
    rcases Nat.lt_or_ge 3 (m.instrByte p 2).toNat with h2 | h2
    · cases err (decode_regToMem_invalid_src h0 hs h2)
      exact .inr (.inr (.inl ⟨hb, h2, rfl⟩))
    · obtain ⟨src, hsrc⟩ := exists_eq_regId h2
      cases err (decode_regToMem h0 hs hsrc)
  · have hs := shapeOf_eq_memToReg.2 hb
    rcases Nat.lt_or_ge 3 (m.instrByte p 6).toNat with h6 | h6
    · cases err (decode_memToReg_invalid_dst h0 hs h6)
      exact .inr (.inr (.inr ⟨hb, h6, rfl⟩))
    · obtain ⟨dst, hdst⟩ := exists_eq_regId h6
      cases err (decode_memToReg h0 hs hdst)
  · cases err (decode_memToMem h0 (shapeOf_eq_memToMem.2 hb))

/-- Settles O4: a failing decode is told apart by its group byte and shape, and each clause is one of the
decoder's equations. -/
theorem decodeErrorsAreTheIllegalEncodings : Obligations.DecodeErrorsAreTheIllegalEncodings := by
  intro m p e
  constructor
  · intro h
    by_cases h0 : m.instrByte p 0 = 0x00#8
    · cases (decode_of_group_zero h0).symm.trans h
    by_cases h1 : m.instrByte p 0 = 0x01#8
    · rcases decode_move_error_cases h1 h with hc | hc | hc | hc
      · exact .inr (.inl ⟨h1, hc⟩)
      · exact .inr (.inr (.inl ⟨h1, hc⟩))
      · exact .inr (.inr (.inr (.inl ⟨h1, hc⟩)))
      · exact .inr (.inr (.inr (.inr ⟨h1, hc⟩)))
    · cases (decode_of_group_other h0 h1).symm.trans h
      exact .inl ⟨h0, h1, rfl⟩
  · rintro (⟨h0, h1, rfl⟩ | ⟨h1, hb, h2, rfl⟩ | ⟨h1, hb, h2, h3, rfl⟩ | ⟨h1, hb, h2, rfl⟩ | ⟨h1, hb, h6, rfl⟩)
    · exact decode_of_group_other h0 h1
    · exact decode_regToReg_invalid_src h1 (shapeOf_eq_regToReg.2 hb) h2
    · obtain ⟨src, hsrc⟩ := exists_eq_regId h2
      exact decode_regToReg_invalid_dst h1 (shapeOf_eq_regToReg.2 hb) hsrc h3
    · exact decode_regToMem_invalid_src h1 (shapeOf_eq_regToMem.2 hb) h2
    · exact decode_memToReg_invalid_dst h1 (shapeOf_eq_memToReg.2 hb) h6

/-! ## What the decoder does not look at -/

/-- The width of a move-group byte is told from its two width bits alone (R63). -/
theorem widthOf_congr {b c : Byte} (h : b.extractLsb' 4 2 = c.extractLsb' 4 2) : widthOf b = widthOf c := by
  rw [widthOf, widthOf, h]

/-- Settles O7: the two move-group bytes have one shape and one width, and the decoder looks at no more. -/
theorem moveGroupLowBitsAreIgnored : Obligations.MoveGroupLowBitsAreIgnored := by
  intro m n p ss ww low low' _ hm hn hj
  apply decode_congr_shape_width hj <;> rw [hm, hn]
  · exact shapeOf_congr ((moveGroup_shape ..).trans (moveGroup_shape ..).symm)
  · exact .inr (widthOf_congr ((moveGroup_width ..).trans (moveGroup_width ..).symm))

theorem instrByte_congr {m : Memory} {p q : Word} (h : m.phys p = m.phys q) (k : Nat) :
    m.instrByte p k = m.instrByte q k := congrArg m.get (byteAddr_congr m h k)

/-- Settles O12: every byte of the stream is at a physical index told from that of the start. -/
theorem decodeDependsOnIpModuloMemSize : Obligations.DecodeDependsOnIpModuloMemSize :=
  fun _ _ _ h => decode_congr fun j _ => instrByte_congr h j

/-! ## Lengths -/

/-- Settles O9: each case of a successful decode fixes the group byte, the shape bits and delta. -/
theorem lengthFollowsFromTheFirstTwoBytes : Obligations.LengthFollowsFromTheFirstTwoBytes := by
  intro m p i d h
  rcases decode_ok_cases h with ⟨h0, -, rfl⟩ | ⟨h0, ⟨hs, _, _, -, -, -, rfl⟩ | ⟨hs, _, -, -, rfl⟩ |
    ⟨hs, _, -, -, rfl⟩ | ⟨hs, -, rfl⟩⟩
  · rw [h0]; rfl
  · rw [h0, shapeOf_eq_regToReg.1 hs]; rfl
  · rw [h0, shapeOf_eq_regToMem.1 hs]; rfl
  · rw [h0, shapeOf_eq_memToReg.1 hs]; rfl
  · rw [h0, shapeOf_eq_memToMem.1 hs]; rfl

/-! ## The opcode table -/

/-- Every row compares the whole group byte, with one of the two legal values (R61, R79). -/
theorem opcodeTable_group_byte : ∀ r ∈ opcodeTable, r.mask.extractLsb' 8 8 = BitVec.allOnes 8 ∧
    (r.pattern.extractLsb' 8 8 = 0x00#8 ∨ r.pattern.extractLsb' 8 8 = 0x01#8) := by decide

theorem group_byte_of_selects {r : OpcodeRow} (hr : r ∈ opcodeTable) {b0 b1 : Byte}
    (h : r.selects (opc16 b0 b1) = true) : b0 = 0x00#8 ∨ b0 = 0x01#8 := by
  obtain ⟨hmask, hpattern⟩ := opcodeTable_group_byte r hr
  have hb : b0 = r.pattern.extractLsb' 8 8 := by
    rw [← beq_iff_eq.1 h, BitVec.extractLsb'_and, hmask, BitVec.and_allOnes, opc16,
      BitVec.extractLsb'_append_eq_left]
  rwa [hb]

theorem one_row_selects_group_zero (b1 : Byte) :
    (opcodeTable.filter (fun r => r.selects (opc16 0x00#8 b1))).length = 1 := by
  revert b1; decide

theorem one_row_selects_group_one (b1 : Byte) :
    (opcodeTable.filter (fun r => r.selects (opc16 0x01#8 b1))).length = 1 := by
  revert b1; decide

theorem no_row_selects_other_group {b0 : Byte} (h : ¬(b0 = 0x00#8 ∨ b0 = 0x01#8)) (b1 : Byte) :
    (opcodeTable.filter (fun r => r.selects (opc16 b0 b1))).length = 0 := by
  rw [List.length_eq_zero_iff, List.filter_eq_nil_iff]
  exact fun r hr hsel => h (group_byte_of_selects hr hsel)

theorem selecting_rows_length (b0 b1 : Byte) :
    (opcodeTable.filter (fun r => r.selects (opc16 b0 b1))).length =
      if b0 = 0x00#8 ∨ b0 = 0x01#8 then 1 else 0 := by
  split
  · next h =>
    rcases h with rfl | rfl
    · exact one_row_selects_group_zero b1
    · exact one_row_selects_group_one b1
  · next h => exact no_row_selects_other_group h b1

/-- Two rows that select the same two bytes are one row. -/
theorem selecting_row_unique {r r' : OpcodeRow} {b0 b1 : Byte} (hr : r ∈ opcodeTable) (hr' : r' ∈ opcodeTable)
    (h : r.selects (opc16 b0 b1) = true) (h' : r'.selects (opc16 b0 b1) = true) : r = r' := by
  have hlen := selecting_rows_length b0 b1
  rw [if_pos (group_byte_of_selects hr h)] at hlen
  obtain ⟨q, hq⟩ := List.length_eq_one_iff.1 hlen
  have only {x : OpcodeRow} (hx : x ∈ opcodeTable) (hs : x.selects (opc16 b0 b1) = true) : x = q :=
    List.mem_singleton.1 (hq ▸ List.mem_filter.2 ⟨hx, hs⟩)
  exact (only hr h).trans (only hr' h').symm

/-- Each instruction's own encoding form, gathered from the constructors' lemmas. -/
theorem encodingForm (i : Instr) : Laws.EncodingForm.Statement i := by
  cases i with
  | halt => exact Laws.EncodingForm.halt
  | movRR src dst => exact Laws.EncodingForm.movRR src dst
  | movRM8 src addr => exact Laws.EncodingForm.movRM8 src addr
  | movRM16 src addr => exact Laws.EncodingForm.movRM16 src addr
  | movRM32 src addr => exact Laws.EncodingForm.movRM32 src addr
  | movMR8 addr dst => exact Laws.EncodingForm.movMR8 addr dst
  | movMR16 addr dst => exact Laws.EncodingForm.movMR16 addr dst
  | movMR32 addr dst => exact Laws.EncodingForm.movMR32 addr dst
  | movMM8 a b => exact Laws.EncodingForm.movMM8 a b
  | movMM16 a b => exact Laws.EncodingForm.movMM16 a b
  | movMM32 a b => exact Laws.EncodingForm.movMM32 a b

theorem two_le_length {i : Instr} (h : i ≠ .halt) : 2 ≤ i.length := by
  cases i with
  | halt => exact absurd rfl h
  | _ => simp [Instr.length]

/-- HALT's row selects the group byte `0x00` whatever the next byte holds: that byte is not HALT's. -/
theorem halt_row_selects (b1 : Byte) :
    (⟨"HALT", 0x0000#16, 0xFF00#16, 1⟩ : OpcodeRow).selects (opc16 0x00#8 b1) = true := by
  revert b1; decide

/-- The first two bytes of an encoding that stands in memory are selected by the row of its instruction. -/
theorem exists_row_of_holds {m : Memory} {p : Word} {g : IgnoredBits} {i : Instr}
    (h : m.Holds p (encodeWith g i)) : ∃ r ∈ opcodeTable, r.mnemonic = i.mnemonic ∧ r.length = i.length ∧
      r.selects (opc16 (m.instrByte p 0) (m.instrByte p 1)) = true := by
  by_cases hi : i = .halt
  · subst hi
    rw [(holds_halt ..).1 h]
    exact ⟨_, by simp [opcodeTable], rfl, rfl, halt_row_selects _⟩
  · have hlen : 2 ≤ (encodeWith g i).length := (encodeWith_length g i).symm ▸ two_le_length hi
    obtain ⟨-, -, r, hr, hname, hlength, hsel⟩ := encodingForm i g
    rw [h.instrByte_eq (k := 0) (by omega), h.instrByte_eq (k := 1) (by omega)]
    rw [List.getD_eq_getElem _ _ (by omega), List.getD_eq_getElem _ _ (by omega)] at hsel
    exact ⟨r, hr, hname, hlength, hsel⟩

/-- Settles O10: one row selects each legal pair of first bytes, so it is the row of the instruction whose
encoding the decoder has found there. -/
theorem opcodeTableAgreesWithTheDecoder : Obligations.OpcodeTableAgreesWithTheDecoder := by
  refine ⟨selecting_rows_length, fun m p i d h r hr hsel => ?_⟩
  obtain ⟨hd, g, hg⟩ := decodedBytesAreAnEncoding m p i d h
  obtain ⟨r', hr', hname, hlength, hsel'⟩ := exists_row_of_holds hg
  cases selecting_row_unique hr hr' hsel hsel'
  exact ⟨hname, by rw [hd, hlength]⟩

/-! ## The independent check on bytes -/

theorem regIdOk_iff {b : Byte} : regIdOk b = true ↔ ∃ r, b = regId r := by
  constructor
  · intro h
    refine exists_eq_regId ?_
    revert b; decide
  · rintro ⟨r, rfl⟩
    exact Laws.regIdOk_regId r

/-- An operand byte of a legal Move encoding that stands in memory, two places on from its start. -/
theorem Machine.Memory.Holds.operand {m : Memory} {p : Word} {g mg : Byte} {operands : List Byte}
    (h : m.Holds p (g :: mg :: operands)) {k : Nat} (hk : k < operands.length) (d : Byte) :
    m.instrByte p (k + 2) = operands.getD k d := by
  rw [List.getD_eq_getElem _ _ hk]
  exact h.instrByte_eq (k := k + 2) (by simpa using hk)

/-- The decoder accepts every Move encoding whose operands pass the check of their shape (R75). -/
theorem decode_of_moveOperandsWf {m : Memory} {p : Word} {mg : Byte} {operands : List Byte}
    (h : m.Holds p (0x01#8 :: mg :: operands)) (hwf : moveOperandsWf (mg.extractLsb' 6 2) operands = true) :
    ∃ i d, decode m p = .ok i d := by
  have h0 : m.instrByte p 0 = 0x01#8 := h.instrByte_eq (k := 0) (by simp)
  have h1 : m.instrByte p 1 = mg := h.instrByte_eq (k := 1) (by simp)
  rcases shapeBits_cases (mg.extractLsb' 6 2) with hb | hb | hb | hb <;> rw [hb] at hwf <;> rw [← h1] at hb
  · simp only [moveOperandsWf, if_true, Bool.and_eq_true, beq_iff_eq, regIdOk_iff] at hwf
    obtain ⟨⟨hlen, src, hsrc⟩, dst, hdst⟩ := hwf
    exact ⟨_, _, decode_regToReg h0 (shapeOf_eq_regToReg.2 hb) ((h.operand (by omega) _).trans hsrc)
      ((h.operand (by omega) _).trans hdst)⟩
  · change (operands.length == 5 && regIdOk (operands.getD 0 0xFF#8)) = true at hwf
    simp only [Bool.and_eq_true, beq_iff_eq, regIdOk_iff] at hwf
    obtain ⟨hlen, src, hsrc⟩ := hwf
    exact ⟨_, _, decode_regToMem h0 (shapeOf_eq_regToMem.2 hb) ((h.operand (by omega) _).trans hsrc)⟩
  · change (operands.length == 5 && regIdOk (operands.getD 4 0xFF#8)) = true at hwf
    simp only [Bool.and_eq_true, beq_iff_eq, regIdOk_iff] at hwf
    obtain ⟨hlen, dst, hdst⟩ := hwf
    exact ⟨_, _, decode_memToReg h0 (shapeOf_eq_memToReg.2 hb) ((h.operand (by omega) _).trans hdst)⟩
  · exact ⟨_, _, decode_memToMem h0 (shapeOf_eq_memToMem.2 hb)⟩

/-- Settles O11: a decoded instruction's encoding passes the check, and bytes that pass it are HALT's one byte
or a Move encoding with legal operands. -/
theorem decoderAcceptsExactlyTheLegalEncodings : Obligations.DecoderAcceptsExactlyTheLegalEncodings := by
  intro m p
  constructor
  · rintro ⟨i, d, h⟩
    obtain ⟨-, g, hg⟩ := decodedBytesAreAnEncoding m p i d h
    exact ⟨_, (encodingForm i g).1, hg⟩
  · rintro ⟨bs, hwf, h⟩
    match bs with
    | [] => cases hwf
    | [g] =>
      have h0 : m.instrByte p 0 = g := h.instrByte_eq (k := 0) (by simp)
      exact ⟨_, _, decode_of_group_zero (h0.trans (beq_iff_eq.1 hwf))⟩
    | g :: mg :: operands =>
      obtain ⟨hg, hops⟩ := Bool.and_eq_true_iff.1 hwf
      cases beq_iff_eq.1 hg
      exact decode_of_moveOperandsWf h hops

end Sys2Proof
end

section
/-! SUPPORT. Memory as an array of bytes (R41, R44, R47), its canonical form (log entry 6), and the cursor as
a stream of it (R51). -/

namespace Sys2Proof.Machine

/-! ## MemWrite, by index and by address -/

theorem Memory.get_write_outside (m : Memory) (a v : Word) (n : Nat) {i : Nat}
    (h : ∀ k, k < n → i ≠ m.phys (byteAddr a k)) : (m.write a v n).get i = m.get i := by
  induction n with
  | zero => rfl
  | succ n ih =>
    have hn : i ≠ (m.write a v n).phys (byteAddr a n) := by simpa using h n (Nat.lt_succ_self n)
    rw [Memory.write, Memory.setByteAt, Memory.get_set_ne _ hn, ih fun k hk => h k (Nat.lt_succ_of_lt hk)]

theorem Memory.byteAt_write_self (m : Memory) (a v : Word) {n k : Nat} (hn : n ≤ 4) (hk : k < n) :
    (m.write a v n).byteAt (byteAddr a k) = byteOf v k := m.byteAt_write_inside a v hn hk rfl

/-- Settles O16: a written byte is the one its address selects, and no other index is set. -/
theorem memWriteChangesExactlyItsBytes : Obligations.MemWriteChangesExactlyItsBytes := by
  intro m a v w
  refine ⟨m.write_size a v _, fun k hk => ?_, fun i hi => m.get_write_outside a v _ hi⟩
  have hb := m.byteAt_write_self a v (widthBytes_le w) hk
  rwa [Memory.byteAt, Memory.write_phys] at hb

/-! ## Mixed-width reads -/

theorem byteOf_append_byteOf (v : Word) (k : Nat) :
    byteOf v (k + 1) ++ byteOf v k = v.extractLsb' (8 * k) 16 :=
  BitVec.extractLsb'_append_extractLsb'_eq_extractLsb' (Nat.mul_succ 8 k)

section MixedWidth

variable (m : Memory) (a v : Word)

/-- A byte of a written word read on its own (R47). -/
theorem Memory.read_one_of_write_four {k : Nat} (hk : k < 4) :
    (m.write a v 4).read (byteAddr a k) 1 = (byteOf v k).setWidth 32 := by
  rw [Memory.read_one, byteAddr_zero, m.byteAt_write_self a v (le_refl 4) hk]

/-- Two adjacent bytes of a written word read together (R47). -/
theorem Memory.read_two_of_write_four {k : Nat} (hk : k + 1 < 4) :
    (m.write a v 4).read (byteAddr a k) 2 = (v.extractLsb' (8 * k) 16).setWidth 32 := by
  rw [Memory.read_two, byteAddr_byteAddr, byteAddr_zero, m.byteAt_write_self a v (le_refl 4) hk,
    m.byteAt_write_self a v (le_refl 4) (Nat.lt_of_succ_lt hk), byteOf_append_byteOf]

theorem Memory.read_four_of_write_four : (m.write a v 4).read a 4 = v := by
  apply word_ext
  intro k hk
  rw [byteOf_read _ _ (le_refl 4), if_pos hk, m.byteAt_write_self a v (le_refl 4) hk]

end MixedWidth

/-- Settles O17: each read is of one, two or four of the bytes written. -/
theorem mixedWidthReadsSeeTheWrittenBytes : Obligations.MixedWidthReadsSeeTheWrittenBytes := by
  intro m a v
  have one {k : Nat} (hk : k < 4) := m.read_one_of_write_four a v hk
  have two {k : Nat} (hk : k + 1 < 4) := m.read_two_of_write_four a v hk
  refine ⟨?_, one (k := 1) (by decide), ?_, two (k := 2) (by decide), two (k := 1) (by decide),
    m.read_four_of_write_four a v⟩
  · simpa [byteOf] using one (k := 0) (by decide)
  · simpa using two (k := 0) (by decide)

/-! ## Addresses with one physical index -/

theorem Memory.byteAt_congr {m : Memory} {a b : Word} (h : m.phys a = m.phys b) : m.byteAt a = m.byteAt b :=
  congrArg m.get h

theorem Memory.phys_of_size_eq {m n : Memory} (h : m.size = n.size) (a : Word) : m.phys a = n.phys a := by
  rw [Memory.phys, Memory.phys, h]

theorem Memory.write_congr_phys {m : Memory} {a b : Word} (h : m.phys a = m.phys b) (v : Word) (n : Nat) :
    m.write a v n = m.write b v n := by
  induction n with
  | zero => rfl
  | succ n ih =>
    rw [Memory.write, Memory.write, ih, Memory.setByteAt, Memory.setByteAt, Memory.write_phys, Memory.write_phys,
      byteAddr_congr m h]

/-- Settles O18: reads and writes use an address through the physical indices of the bytes from it. -/
theorem addressesWithOnePhysicalIndexAreOneLocation :
    Obligations.AddressesWithOnePhysicalIndexAreOneLocation :=
  fun m a _ => ⟨m.phys_byteAddr a, fun h w v =>
    ⟨read_congr (widthBytes_le w) fun k _ => Memory.byteAt_congr (byteAddr_congr m h k),
      Memory.write_congr_phys h v _⟩⟩

/-! ## The canonical form -/

theorem cellsLookup_of_not_listed {cs : List Host.Cell} {i : Nat} (h : ∀ c ∈ cs, c.1 ≠ i) :
    cellsLookup cs i = Memory.unlisted := by
  induction cs with
  | nil => rfl
  | cons c cs ih =>
    rw [cellsLookup, if_neg (h c List.mem_cons_self), ih fun d hd => h d (List.mem_cons_of_mem c hd)]

/-- In a rising list a cell's value is the one looked up under its key. -/
theorem cellsLookup_of_mem {cs : List Host.Cell} (hr : cellsRising cs = true) {c : Host.Cell} (hc : c ∈ cs) :
    cellsLookup cs c.1 = c.2 := by
  induction cs with
  | nil => cases hc
  | cons d ds ih =>
    obtain ⟨hd, hds⟩ := (cellsRising_cons d ds).1 hr
    rcases List.mem_cons.1 hc with rfl | hc
    · exact if_pos rfl
    · rw [cellsLookup, if_neg (Nat.ne_of_lt (hd c hc)), ih hds hc]

/-- A value that is not the unlisted one is looked up from a cell of the list. -/
theorem mem_of_cellsLookup_ne {cs : List Host.Cell} {i : Nat} (h : cellsLookup cs i ≠ Memory.unlisted) :
    (i, cellsLookup cs i) ∈ cs := by
  induction cs with
  | nil => exact absurd rfl h
  | cons c cs ih =>
    rw [cellsLookup] at h ⊢
    split at h
    · next hc => rw [if_pos hc, ← hc]; exact List.mem_cons_self
    · next hc => rw [if_neg hc]; exact List.mem_cons_of_mem c (ih h)

/-- The cells of a canonical array are its bytes that differ from the unlisted value. -/
theorem Memory.mem_cells_iff {m : Memory} (h : m.wf = true) (c : Host.Cell) :
    c ∈ m.cells ↔ m.get c.1 = c.2 ∧ c.2 ≠ Memory.unlisted := by
  obtain ⟨hr, hc⟩ := m.wf_iff.1 h
  constructor
  · exact fun hm => ⟨cellsLookup_of_mem hr hm, (hc c hm).2⟩
  · rintro ⟨hget, hne⟩
    have hmem := mem_of_cellsLookup_ne (cs := m.cells) (i := c.1) (hget.trans_ne hne)
    rwa [show cellsLookup m.cells c.1 = c.2 from hget] at hmem

theorem cellsRising_iff_pairwise (cs : List Host.Cell) :
    cellsRising cs = true ↔ cs.Pairwise (fun c d => c.1 < d.1) := by
  induction cs with
  | nil => simp [cellsRising]
  | cons c cs ih => rw [cellsRising_cons, ih, List.pairwise_cons]

/-- Rising lists of the same cells are the same list. -/
theorem cellsRising_ext {cs ds : List Host.Cell} (hc : cellsRising cs = true) (hd : cellsRising ds = true)
    (h : ∀ c, c ∈ cs ↔ c ∈ ds) : cs = ds := by
  rw [cellsRising_iff_pairwise] at hc hd
  have hperm : cs.Perm ds :=
    (List.perm_ext_iff_of_nodup (hc.imp fun hlt he => absurd (congrArg Prod.fst he) (Nat.ne_of_lt hlt))
      (hd.imp fun hlt he => absurd (congrArg Prod.fst he) (Nat.ne_of_lt hlt))).2 h
  exact hperm.eq_of_pairwise (fun _ _ _ _ hlt hgt => absurd hlt (Nat.lt_asymm hgt)) hc hd

theorem Memory.get_of_le {m : Memory} (h : m.wf = true) {i : Nat} (hi : m.size.bytes ≤ i) :
    m.get i = Memory.unlisted :=
  cellsLookup_of_not_listed fun c hc => Nat.ne_of_lt (lt_of_lt_of_le ((m.wf_iff.1 h).2 c hc).1 hi)

/-- An index below MEM_SIZE, as an address, selects itself (R41). -/
theorem Memory.byteAt_ofNat {m : Memory} {i : Nat} (hi : i < m.size.bytes) :
    m.byteAt (BitVec.ofNat 32 i) = m.get i := by
  have hb := m.byteAt_byteAddr_ofNat i 0
  rwa [byteAddr_zero, Nat.add_zero, Nat.mod_eq_of_lt hi] at hb

/-- Canonical arrays of one size with the same byte at every index are the same data. -/
theorem Memory.ext_of_get {m n : Memory} (hm : m.wf = true) (hn : n.wf = true) (hs : m.size = n.size)
    (h : ∀ i, i < m.size.bytes → m.get i = n.get i) : m = n := by
  have hget (i : Nat) : m.get i = n.get i := by
    rcases Nat.lt_or_ge i m.size.bytes with hi | hi
    · exact h i hi
    · rw [Memory.get_of_le hm hi, Memory.get_of_le hn (hs ▸ hi)]
  have hcells : m.cells = n.cells :=
    cellsRising_ext (m.wf_iff.1 hm).1 (n.wf_iff.1 hn).1 fun c => by
      rw [Memory.mem_cells_iff hm, Memory.mem_cells_iff hn, hget]
  cases m; cases n; cases hs; cases hcells; rfl

/-- Settles O19: equal bytes at every address are equal bytes at every index, and these tell the cells. -/
theorem canonicalMemoriesWithEqualBytesAreEqual : Obligations.CanonicalMemoriesWithEqualBytesAreEqual := by
  rintro m n hm hn ⟨hs, hb⟩
  refine Memory.ext_of_get hm hn hs fun i hi => ?_
  rw [← Memory.byteAt_ofNat hi, hb, Memory.byteAt_ofNat (hs ▸ hi)]

/-! ## The cursor's stream -/

section Stream

variable {m : Memory} {p : Word} {t : Nat} {c : Cursor}

/-- One read delivers the bytes of the stream from where the cursor stands (R51). -/
theorem CursorRead.run_fst (h : Cursor.At m p t c) (r : CursorRead) :
    (r.run m c).1 = (List.range' t r.bytes).map (m.instrByte p) := by
  have hb {n k : Nat} (hn : n ≤ 4) (hk : k < n) :
      byteOf (m.read (byteAddr p t) n) k = m.instrByte p (t + k) := by
    rw [byteOf_read _ _ hn, if_pos hk, byteAddr_byteAddr, Memory.instrByte]
  cases r with
  | next8 => exact congrArg (fun b => [b]) h.next8_fst
  | next16 =>
    have h0 := hb (n := 2) (k := 0) (by decide) (by decide)
    have h1 := hb (n := 2) (k := 1) (by decide) (by decide)
    simp only [CursorRead.run, h.next16_fst, BitVec.extractLsb'_setWidth_of_le (by decide : 0 + 8 ≤ 16),
      BitVec.extractLsb'_setWidth_of_le (by decide : 8 + 8 ≤ 16)]
    exact congrArg₂ (fun x y => [x, y]) h0 h1
  | next32 =>
    simp only [CursorRead.run, h.next32_fst, addrBytes]
    rw [hb (k := 0) (by decide) (by decide), hb (k := 1) (by decide) (by decide), hb (k := 2) (by decide) (by decide),
      hb (k := 3) (by decide) (by decide)]
    rfl

theorem CursorRead.run_snd (h : Cursor.At m p t c) (r : CursorRead) :
    Cursor.At m p (t + r.bytes) (r.run m c).2 := by
  cases r with
  | next8 => exact h.next8_snd
  | next16 => exact h.advance 2
  | next32 => exact h.next32_snd

/-- A sequence of reads delivers the stream and leaves the cursor after it (R51). -/
theorem runReads_stream (h : Cursor.At m p t c) (rs : List CursorRead) :
    (runReads m c rs).1 = (List.range' t (rs.map CursorRead.bytes).sum).map (m.instrByte p) ∧
      Cursor.At m p (t + (rs.map CursorRead.bytes).sum) (runReads m c rs).2 := by
  induction rs generalizing t c with
  | nil => exact ⟨rfl, h⟩
  | cons r rs ih =>
    obtain ⟨hbytes, hat⟩ := ih (CursorRead.run_snd h r)
    refine ⟨?_, by simpa only [runReads, List.map_cons, List.sum_cons, Nat.add_assoc] using hat⟩
    rw [runReads, CursorRead.run_fst h, hbytes, ← List.map_append, List.range'_append_1, List.map_cons,
      List.sum_cons]

end Stream

/-- Settles O14: the reads deliver the bytes of the stream from place 0 on, and the cursor stands after them. -/
theorem cursorStreamIsMemoryFromItsStart : Obligations.CursorStreamIsMemoryFromItsStart := by
  intro m p rs
  obtain ⟨hbytes, hat⟩ := runReads_stream (Cursor.at_start m p) rs
  rw [Nat.zero_add] at hat
  dsimp only
  refine ⟨hat.2, by rw [hbytes, hat.2, List.length_map, List.length_range'], fun j hj => ?_, ?_⟩
  · simp only [hbytes, List.getElem_map, List.getElem_range', Nat.zero_add, Nat.one_mul]
    rfl
  · rw [hat.next8_fst, hat.2]

end Sys2Proof.Machine
end

section
/-! SUPPORT. The ten MOV instructions (R90 to R100): each completes by setting one register or by storing one
value, so its frame is that of the operation and its result is a fact about bytes of a word. -/

namespace Sys2Proof.Machine

/-! ## The frame of the two state operations -/

theorem State.setReg_gpr_frame (s : State) (dst : Reg) (w : Width) (v : Word) :
    SameGprsExcept dst s (s.setReg (.gpr dst) w v) ∧ SameIpFlags s (s.setReg (.gpr dst) w v) ∧
      SameMemory s (s.setReg (.gpr dst) w v) :=
  ⟨fun _ hr => s.reg_setReg_ne (fun he => hr (RegName.gpr.inj he)) w v,
    ⟨s.setReg_gpr_ip dst w v, s.setReg_flags _ w v⟩,
    ⟨congrArg Memory.size (s.setReg_mem _ w v), fun q => congrArg (·.byteAt q) (s.setReg_mem _ w v)⟩⟩

theorem State.dstMem_frame (s : State) (w : Width) (a v : Word) :
    SameGprs s (s.dstMem w a v) ∧ SameIpFlags s (s.dstMem w a v) :=
  ⟨fun r => s.dstMem_reg w a v (.gpr r), s.dstMem_ip w a v, s.dstMem_flags w a v⟩

theorem State.dstMem_stores (s : State) (w : Width) (a v : Word) :
    Stores s (s.dstMem w a v) a (widthBytes w) v :=
  ⟨s.mem.write_size a v _, fun _ hk => s.mem.byteAt_write_self a v (widthBytes_le w) hk,
    fun _ hq => s.mem.byteAt_write_outside a v _ hq⟩

/-! ## MOV.RR -/

/-- Settles O23: the 32-bit setter replaces the whole register. -/
theorem movRRCopiesTheWholeRegister : Obligations.MovRRCopiesTheWholeRegister := by
  intro src dst s
  refine ⟨_, rfl, ?_, s.setReg_gpr_frame dst .w32 _⟩
  rw [State.reg_setReg_self, mergeWidth_w32]

/-! ## MOV.RM -/

/-- The mask of the source keeps every byte that is stored (R26, R91 to R93). -/
theorem State.storeReg_stores (s : State) (w : Width) (src : Reg) (addr : Word) :
    Stores s (s.storeReg w src addr) addr (widthBytes w) (s.reg (.gpr src)) := by
  obtain ⟨hsize, hbytes, hframe⟩ := s.dstMem_stores w addr (s.srcReg w src)
  exact ⟨hsize, fun k hk => (hbytes k hk).trans (byteOf_and_widthMask w _ hk), hframe⟩

theorem State.storeReg_spec (s : State) (w : Width) (src : Reg) (addr : Word) :
    Stores s (s.storeReg w src addr) addr (widthBytes w) (s.reg (.gpr src)) ∧
      SameGprs s (s.storeReg w src addr) ∧ SameIpFlags s (s.storeReg w src addr) :=
  ⟨s.storeReg_stores w src addr, s.dstMem_frame w addr _⟩

/-- Settles O24: the store of a register at 8 bits. -/
theorem movRM8StoresOneByte : Obligations.MovRM8StoresOneByte :=
  fun src addr s => ⟨_, rfl, s.storeReg_spec .w8 src addr⟩

/-- Settles O25: the store of a register at 16 bits. -/
theorem movRM16StoresTwoBytes : Obligations.MovRM16StoresTwoBytes :=
  fun src addr s => ⟨_, rfl, s.storeReg_spec .w16 src addr⟩

/-- Settles O26: the store of a register at 32 bits. -/
theorem movRM32StoresFourBytes : Obligations.MovRM32StoresFourBytes :=
  fun src addr s => ⟨_, rfl, s.storeReg_spec .w32 src addr⟩

/-! ## MOV.MR -/

/-- The merge bit by bit: the new value below the width, the old one from the width on (R25). -/
theorem getLsbD_mergeWidth (w : Width) (old v : Word) {i : Nat} (hi : i < 32) :
    (mergeWidth w old v).getLsbD i = if i < 8 * widthBytes w then v.getLsbD i else old.getLsbD i := by
  simp only [mergeWidth, BitVec.getLsbD_or, BitVec.getLsbD_and, BitVec.getLsbD_not, getLsbD_widthMask w hi, hi]
  by_cases h : i < 8 * widthBytes w <;> simp [h]

/-- A merge of n bits appends them to the old bits above (R25). -/
theorem mergeWidth_eq_append {w : Width} {n l : Nat} (hn : n = 8 * widthBytes w) (hl : l + n = 32) (old : Word)
    (b : BitVec n) : mergeWidth w old (b.setWidth 32) = (old.extractLsb' n l ++ b).cast hl := by
  apply BitVec.eq_of_getLsbD_eq
  intro i hi
  rw [getLsbD_mergeWidth w old _ hi, ← hn, BitVec.getLsbD_cast, BitVec.getLsbD_append]
  split
  · simp [hi]
  · next h =>
    have h1 : i - n < l := by omega
    have h2 : n + (i - n) = i := by omega
    simp [h1, h2]

theorem State.reg_loadReg (s : State) (w : Width) (addr : Word) (dst : Reg) :
    (s.loadReg w addr dst).reg (.gpr dst) =
      mergeWidth w (s.reg (.gpr dst)) (s.mem.read addr (widthBytes w)) := s.reg_setReg_self _ w _

/-- Settles O27: the byte read takes bits 7:0 in the merge. -/
theorem movMR8MergesOneByte : Obligations.MovMR8MergesOneByte := by
  intro addr dst s
  refine ⟨_, rfl, ?_, s.setReg_gpr_frame dst .w8 _⟩
  rw [State.reg_loadReg, widthBytes, Memory.read_one, byteAddr_zero]
  exact mergeWidth_eq_append (w := .w8) rfl rfl _ _

/-- Settles O28: the two bytes read take bits 15:0 in the merge. -/
theorem movMR16MergesTwoBytes : Obligations.MovMR16MergesTwoBytes := by
  intro addr dst s
  refine ⟨_, rfl, ?_, s.setReg_gpr_frame dst .w16 _⟩
  rw [State.reg_loadReg, widthBytes, Memory.read_two, byteAddr_zero]
  exact mergeWidth_eq_append (w := .w16) rfl rfl _ _

/-- Settles O29: the four bytes read replace the whole register. -/
theorem movMR32LoadsFourBytes : Obligations.MovMR32LoadsFourBytes := by
  intro addr dst s
  refine ⟨_, rfl, ?_, s.setReg_gpr_frame dst .w32 _⟩
  rw [State.reg_loadReg, mergeWidth_w32, widthBytes, Memory.read_four, byteAddr_zero]
  rfl

/-! ## MOV.MM -/

/-- Every byte copied is the source byte as it was, because all are read before any is written (D11). -/
theorem State.byteAt_copyMem (s : State) (w : Width) (a b : Word) {k : Nat} (hk : k < widthBytes w) :
    (s.copyMem w a b).mem.byteAt (byteAddr b k) = s.mem.byteAt (byteAddr a k) := by
  obtain ⟨-, hbytes, -⟩ := s.dstMem_stores w b (s.srcMem w a)
  rw [State.copyMem, hbytes k hk, State.srcMem, byteOf_read _ _ (widthBytes_le w), if_pos hk]

theorem State.byteAt_copyMem_w8 (s : State) (a b : Word) :
    (s.copyMem .w8 a b).mem.byteAt b = s.mem.byteAt a := by
  simpa using s.byteAt_copyMem .w8 a b (k := 0) (by decide)

theorem State.copyMem_frame (s : State) (w : Width) (a b : Word) :
    (s.copyMem w a b).mem.size = s.mem.size ∧
      ∀ q, s.mem.Outside b (widthBytes w) q → (s.copyMem w a b).mem.byteAt q = s.mem.byteAt q := by
  obtain ⟨hsize, -, hframe⟩ := s.dstMem_stores w b (s.srcMem w a)
  exact ⟨hsize, hframe⟩

/-- A byte copied onto itself changes no byte of memory (R97). -/
theorem State.copyMem_w8_self (s : State) {a b : Word} (h : s.mem.phys a = s.mem.phys b) :
    SameMemory s (s.copyMem .w8 a b) := by
  obtain ⟨hsize, hframe⟩ := s.copyMem_frame .w8 a b
  refine ⟨hsize, fun q => ?_⟩
  by_cases hq : s.mem.phys q = s.mem.phys b
  · have hq' : (s.copyMem .w8 a b).mem.phys q = (s.copyMem .w8 a b).mem.phys b := by
      rwa [Memory.phys_of_size_eq hsize, Memory.phys_of_size_eq hsize]
    rw [Memory.byteAt_congr hq', s.byteAt_copyMem_w8, Memory.byteAt_congr (h.trans hq.symm)]
  · refine hframe q fun k hk => ?_
    obtain rfl : k = 0 := Nat.lt_one_iff.1 hk
    rwa [byteAddr_zero]

/-- Settles O30: the copy of one byte; where source and destination are one byte, it is written as it was. -/
theorem movMM8CopiesOneByte : Obligations.MovMM8CopiesOneByte := by
  intro a b s
  obtain ⟨hsize, hframe⟩ := s.copyMem_frame .w8 a b
  exact ⟨_, rfl, s.byteAt_copyMem_w8 a b, hsize, hframe, fun h => s.copyMem_w8_self h, s.dstMem_frame .w8 b _⟩

theorem State.copyMem_spec (s : State) (w : Width) (a b : Word) :
    (∀ k, k < widthBytes w → (s.copyMem w a b).mem.byteAt (byteAddr b k) = s.mem.byteAt (byteAddr a k)) ∧
      (s.copyMem w a b).mem.size = s.mem.size ∧
      (∀ q, s.mem.Outside b (widthBytes w) q → (s.copyMem w a b).mem.byteAt q = s.mem.byteAt q) ∧
      SameGprs s (s.copyMem w a b) ∧ SameIpFlags s (s.copyMem w a b) := by
  obtain ⟨hsize, hframe⟩ := s.copyMem_frame w a b
  exact ⟨fun _ => s.byteAt_copyMem w a b, hsize, hframe, s.dstMem_frame w b _⟩

/-- Settles O31: the copy at 16 bits. -/
theorem movMM16CopiesTheOldTwoBytes : Obligations.MovMM16CopiesTheOldTwoBytes :=
  fun a b s => ⟨_, rfl, s.copyMem_spec .w16 a b⟩

/-- Settles O32: the copy at 32 bits. -/
theorem movMM32CopiesTheOldFourBytes : Obligations.MovMM32CopiesTheOldFourBytes :=
  fun a b s => ⟨_, rfl, s.copyMem_spec .w32 a b⟩

end Sys2Proof.Machine
end

section
/-! SUPPORT. The cycle (R80 to R82): it runs the decoded instruction or faults with the decode's error, it
advances IP by the length, and its fetch sees what was stored before it (R57). -/

namespace Sys2Proof.Machine

/-! ## A cycle runs the decoded instruction -/

theorem State.response_of_ok {s : State} {i : Instr} {d : Word} (h : decode s.mem s.ip = .ok i d) :
    s.response = .ok i := by rw [State.response, h]

theorem step_of_ok_eq {s : State} {i : Instr} {d : Word} (h : decode s.mem s.ip = .ok i d) :
    step s = exec i { s with ip := s.ip + d } := by rw [step_of_ok h, State.advanceIp_eq]

theorem execute_of_next {i : Instr} {s t : State} (h : exec i s = .next t) : execute i s = t := by
  rw [execute, h, stateAfter]

theorem cycle_of_ok {s : State} {i : Instr} {d : Word} (h : decode s.mem s.ip = .ok i d) :
    cycle s = (execute i { s with ip := s.ip + d }, .ok i) := by
  obtain ⟨t, ht, -⟩ := exec_completes i { s with ip := s.ip + d }
  rw [cycle, step_of_ok_eq h, State.response_of_ok h, execute_of_next ht, ht, stateAfter]

/-- Settles O34: the step and the cycle of a decoded instruction, and the same where its bytes stand at IP,
which is where the decoder reads it back. -/
theorem stepRunsTheDecodedInstruction : Obligations.StepRunsTheDecodedInstruction :=
  ⟨fun _ _ _ h => ⟨step_of_ok_eq h, cycle_of_ok h, rfl⟩,
    fun s g i h => step_of_ok_eq (encodedInstructionDecodesToItself s.mem s.ip g i h)⟩

/-! ## When a step stops -/

theorem step_completes_of_ok {s : State} {i : Instr} {d : Word} (h : decode s.mem s.ip = .ok i d) :
    ∃ t, step s = .next t := by
  obtain ⟨t, ht, -⟩ := exec_completes i (s.advanceIp d)
  exact ⟨t, (step_of_ok h).trans ht⟩

/-- Where a decode succeeds the step completes, and where it fails the step faults with its error (D16). -/
theorem step_cases (s : State) :
    ((∃ i d, decode s.mem s.ip = .ok i d) ∧ ∃ t, step s = .next t) ∨
      ∃ e, decode s.mem s.ip = .error e ∧ step s = .fault (.decodeError e) := by
  cases h : decode s.mem s.ip with
  | ok i d => exact .inl ⟨⟨i, d, rfl⟩, step_completes_of_ok h⟩
  | error e => exact .inr ⟨e, rfl, step_of_error h⟩

theorem step_fault_iff (s : State) (e : DecodeError) :
    step s = .fault (.decodeError e) ↔ decode s.mem s.ip = .error e := by
  refine ⟨fun h => ?_, step_of_error⟩
  rcases step_cases s with ⟨-, t, ht⟩ | ⟨e', hd, he⟩
  · cases ht.symm.trans h
  · cases he.symm.trans h
    exact hd

theorem step_next_iff (s : State) : (∃ t, step s = .next t) ↔ ∃ i d, decode s.mem s.ip = .ok i d := by
  constructor
  · rintro ⟨t, h⟩
    obtain ⟨i, d, hd, -⟩ := step_next h
    exact ⟨i, d, hd⟩
  · rintro ⟨i, d, h⟩
    exact step_completes_of_ok h

/-- Settles O36: the decode at IP tells which of the two outcomes a step has. -/
theorem stepFaultsExactlyOnDecodeErrors : Obligations.StepFaultsExactlyOnDecodeErrors := by
  refine fun s => ⟨step_fault_iff s, step_next_iff s, fun r h => ?_⟩
  rcases step_cases s with ⟨-, t, ht⟩ | ⟨e, -, he⟩
  · cases ht.symm.trans h
  · cases he.symm.trans h

/-! ## The advance of IP -/

theorem Instr.length_mem (i : Instr) : i.length ∈ [1, 4, 7, 10] := by
  cases i <;> simp [Instr.length]

/-- Settles O37: IP is advanced by delta, which is the length, and the instruction does not touch it. -/
theorem everyStepAdvancesIpByTheLength : Obligations.EveryStepAdvancesIpByTheLength := by
  intro s t h
  obtain ⟨i, d, hd, hexec⟩ := step_next h
  obtain ⟨u, hu, hip, -⟩ := exec_completes i (s.advanceIp d)
  cases hexec.symm.trans hu
  obtain ⟨hlen, -⟩ := decodedBytesAreAnEncoding s.mem s.ip i d hd
  exact ⟨i, ⟨d, hd⟩, by rw [hip, State.advanceIp_ip, hlen], Instr.length_mem i⟩

/-! ## Fetch after a store -/

/-- The byte that MOV.RM8 stores is at every address of its location (R41, R57). -/
theorem State.byteAt_storeReg_w8 (s : State) (src : Reg) {addr q : Word} (h : s.mem.phys addr = s.mem.phys q) :
    (s.storeReg .w8 src addr).mem.byteAt q = byteOf (s.reg (.gpr src)) 0 := by
  obtain ⟨hsize, hbytes, -⟩ := s.storeReg_stores .w8 src addr
  have hb := hbytes 0 (by decide)
  rw [byteAddr_zero] at hb
  rw [← hb]
  exact Memory.byteAt_congr (by rw [Memory.phys_of_size_eq hsize, Memory.phys_of_size_eq hsize, h])

/-- Settles O38: the byte stored is the one at the advanced IP, so the next decode is that of its value as a
group byte. -/
theorem nextFetchSeesTheStoredByte : Obligations.NextFetchSeesTheStoredByte := by
  intro s src addr hbytes haddr
  have hd : decode s.mem s.ip = .ok (.movRM8 src addr) 7#32 :=
    encodedInstructionDecodesToItself s.mem s.ip .zero _ hbytes
  have hip : ((s.advanceIp 7#32).storeReg .w8 src addr).ip = s.ip + 7#32 := s.advanceIp_ip 7#32
  have hb : ((s.advanceIp 7#32).storeReg .w8 src addr).mem.byteAt (s.ip + 7#32) =
      (s.reg (.gpr src)).extractLsb' 0 8 := by
    rw [(s.advanceIp 7#32).byteAt_storeReg_w8 src haddr, State.advanceIp_gpr, byteOf]
  rw [← hip] at hb
  refine ⟨_, step_of_ok hd, hip, hb, fun h0 => step_of_halt_byte (hb.trans h0), fun h1 => step_of_error ?_⟩
  rw [← hb, ← Memory.instrByte_zero] at h1 ⊢
  exact decode_of_group_other (fun h => by simp [h] at h1) (fun h => by simp [h] at h1)

end Sys2Proof.Machine
end

section
/-! SUPPORT. What every sequence of host calls keeps: a property that the two state operations keep is kept by
every instruction, every cycle and every call (R27, R100, log entries 6 and 15). -/

namespace Sys2Proof.Machine

/-! ## Properties that the state's operations keep -/

/-- A property of states that setting a register and storing to memory keep. -/
structure Kept (P : State → Prop) : Prop where
  setReg : ∀ s r w v, P s → P (s.setReg r w v)
  dstMem : ∀ s w a v, P s → P (s.dstMem w a v)

/-- An outcome leaves the state it was answered in, or its next state. -/
theorem stateAfter_of_next {P : State → Prop} {s : State} {o : Outcome} (hs : P s)
    (ho : ∀ t, o = .next t → P t) : P (stateAfter s o) := by
  cases o with
  | next t => exact ho t rfl
  | fault => exact hs
  | refused => exact hs

namespace Kept

variable {P : State → Prop} (hP : Kept P) {s t : State}
include hP

theorem exec {i : Instr} (hs : P s) (h : exec i s = .next t) : P t := by
  rcases exec_cases i s with hn | ⟨r, w, v, hn⟩ | ⟨w, a, v, hn⟩ <;> cases hn.symm.trans h
  · exact hs
  · exact hP.setReg _ _ _ _ hs
  · exact hP.dstMem _ _ _ _ hs

/-- The advance of IP is a register set as well (R80). -/
theorem step (hs : P s) (h : step s = .next t) : P t := by
  obtain ⟨i, d, -, hexec⟩ := step_next h
  exact hP.exec (hP.setReg s .ip .w32 _ hs) hexec

theorem apply (hs : P s) (c : Call) : P (c.apply s) := by
  cases c with
  | cycle => exact stateAfter_of_next hs fun _ => hP.step hs
  | execute i => exact stateAfter_of_next hs fun _ => hP.exec hs
  | snapshot => exact hs

theorem runCalls (hs : P s) (cs : List Call) : P (runCalls s cs) := by
  induction cs generalizing s with
  | nil => exact hs
  | cons c cs ih => exact ih (hP.apply hs c)

end Kept

/-! ## The canonical form -/

theorem kept_inv : Kept State.Inv where
  setReg s r w v h := by rwa [State.Inv, State.setReg_mem]
  dstMem _ w a v h := State.dstMem_wf h w a v

/-- Settles O39: the canonical form is kept by both operations, so by every step and every call. -/
theorem everyStepKeepsMemoryCanonical : Obligations.EveryStepKeepsMemoryCanonical :=
  ⟨fun _ _ hs => kept_inv.step hs, fun _ c hs => kept_inv.apply hs c⟩

/-- Settles O40: the empty list is canonical. -/
theorem resetMemoryIsCanonical : Obligations.ResetMemoryIsCanonical := Memory.wf_empty _

/-! ## FLAGS and MEM_SIZE -/

/-- The state's FLAGS container and MEM_SIZE are the given ones. -/
def State.HasFlagsAndSize (f : FlagSet) (z : MemSize) (s : State) : Prop := s.flags = f ∧ s.mem.size = z

theorem kept_hasFlagsAndSize (f : FlagSet) (z : MemSize) : Kept (State.HasFlagsAndSize f z) where
  setReg s r w v h := by rwa [State.HasFlagsAndSize, State.setReg_flags, State.setReg_mem]
  dstMem s w a v h := by rwa [State.HasFlagsAndSize, State.dstMem_flags, State.dstMem_mem, Memory.write_size]

/-- Settles O41: neither operation touches the two values, so no sequence of calls does. -/
theorem flagsAndSizesNeverChange : Obligations.FlagsAndSizesNeverChange :=
  fun s cs => (kept_hasFlagsAndSize s.flags s.mem.size).runCalls ⟨rfl, rfl⟩ cs

end Sys2Proof.Machine
end

section
/-! SUPPORT. Memory is what it reads as (log entry 6): construction from an image and back (R130), and states
with the same contents step alike (R137). -/

namespace Sys2Proof.Machine

/-! ## Construction from an image -/

theorem Memory.foldl_set_size (z : MemSize) (image : List Host.Cell) (m : Memory) :
    (image.foldl (fun m c => m.set (c.1 % z.bytes) c.2) m).size = m.size := by
  induction image generalizing m with
  | nil => rfl
  | cons c cs ih => exact (ih _).trans (m.set_size _ _)

theorem Memory.get_foldl_set_not_listed (z : MemSize) (image : List Host.Cell) (m : Memory) {i : Nat}
    (h : ∀ c ∈ image, c.1 % z.bytes ≠ i) :
    (image.foldl (fun m c => m.set (c.1 % z.bytes) c.2) m).get i = m.get i := by
  induction image generalizing m with
  | nil => rfl
  | cons c cs ih =>
    rw [List.foldl_cons, ih _ fun d hd => h d (List.mem_cons_of_mem c hd),
      Memory.get_set_ne _ (h c List.mem_cons_self).symm]

@[simp] theorem Memory.ofImage_size (z : MemSize) (image : List Host.Cell) : (Memory.ofImage z image).size = z :=
  Memory.foldl_set_size z image (Memory.empty z)

theorem Memory.get_ofImage_not_listed {z : MemSize} {image : List Host.Cell} {i : Nat}
    (h : ∀ c ∈ image, c.1 % z.bytes ≠ i) : (Memory.ofImage z image).get i = Memory.unlisted :=
  Memory.get_foldl_set_not_listed z image (Memory.empty z) h

/-- The last entry of an index counts (R130). -/
theorem Memory.get_ofImage_last {z : MemSize} {pre post : List Host.Cell} {c : Host.Cell}
    (h : ∀ d ∈ post, d.1 % z.bytes ≠ c.1 % z.bytes) :
    (Memory.ofImage z (pre ++ c :: post)).get (c.1 % z.bytes) = c.2 := by
  rw [Memory.ofImage, List.foldl_append, List.foldl_cons, Memory.get_foldl_set_not_listed z post _ h,
    Memory.get_set_self]

/-- In a canonical array's list no later cell has the key of an earlier one. -/
theorem Memory.get_ofImage_cells {m : Memory} (h : m.wf = true) (i : Nat) :
    (Memory.ofImage m.size m.cells).get i = m.get i := by
  obtain ⟨hr, hc⟩ := m.wf_iff.1 h
  have hkey {c : Host.Cell} (hm : c ∈ m.cells) : c.1 % m.size.bytes = c.1 := Nat.mod_eq_of_lt (hc c hm).1
  by_cases hi : ∃ c ∈ m.cells, c.1 = i
  · obtain ⟨c, hm, rfl⟩ := hi
    obtain ⟨pre, post, hsplit⟩ := List.append_of_mem hm
    have hlast : ∀ d ∈ post, d.1 % m.size.bytes ≠ c.1 % m.size.bytes := by
      intro d hd
      rw [cellsRising_iff_pairwise, hsplit, List.pairwise_append, List.pairwise_cons] at hr
      obtain ⟨-, ⟨hpost, -⟩, -⟩ := hr
      have hdm : d ∈ m.cells := hsplit ▸ List.mem_append_right _ (List.mem_cons_of_mem c hd)
      rw [hkey hm, hkey hdm]
      exact (Nat.ne_of_lt (hpost d hd)).symm
    have hget := Memory.get_ofImage_last (pre := pre) hlast
    rw [← hsplit, hkey hm] at hget
    exact hget.trans ((Memory.mem_cells_iff h c).1 hm).1.symm
  · have hne : ∀ c ∈ m.cells, c.1 ≠ i := fun c hm he => hi ⟨c, hm, he⟩
    rw [Memory.get_ofImage_not_listed fun c hm => (hkey hm).trans_ne (hne c hm)]
    exact (cellsLookup_of_not_listed hne).symm

/-- A canonical array is constructed from its own cells. -/
theorem Memory.ofImage_cells {m : Memory} (h : m.wf = true) : Memory.ofImage m.size m.cells = m :=
  Memory.ext_of_get (Memory.wf_ofImage _ _) h (Memory.ofImage_size _ _) fun i _ => Memory.get_ofImage_cells h i

/-- The INIT whose values are those of a state. -/
def State.toInit (s : State) : Init where
  a := s.a
  b := s.b
  x := s.x
  y := s.y
  ip := s.ip
  flags := s.flags
  size := s.mem.size
  image := s.mem.cells

theorem State.ofInit_toInit {s : State} (h : s.Inv) : State.ofInit s.toInit = s := by
  rw [State.ofInit, State.toInit, Memory.ofImage_cells h]

/-- Settles O44: the image read back index by index, and a canonical state's own values as INIT. -/
theorem constructionHoldsInitAndReachesEveryState : Obligations.ConstructionHoldsInitAndReachesEveryState := by
  refine ⟨fun n => ⟨rfl, rfl, rfl, rfl, rfl, rfl, Memory.ofImage_size _ _, Memory.wf_ofImage _ _,
    fun _ => Memory.get_ofImage_not_listed, fun pre c post himage hlast => ?_⟩, fun s h => ⟨_, State.ofInit_toInit h⟩⟩
  change (Memory.ofImage n.size n.image).get _ = _
  rw [himage]
  exact Memory.get_ofImage_last hlast

/-- Settles O43: every register and the empty memory list, read at reset. -/
theorem resetIsTheAllZeroDefault : Obligations.ResetIsTheAllZeroDefault := by
  refine ⟨fun r => ?_, rfl, by decide, fun _ => rfl⟩
  rcases r with ⟨_ | _ | _ | _⟩ | _ <;> rfl

/-! ## States with the same contents -/

section SameContents

variable {m n : Memory}

theorem Memory.SameContents.instrByte (h : m.SameContents n) (p : Word) (k : Nat) :
    m.instrByte p k = n.instrByte p k := h.2 _

theorem Memory.SameContents.decode (h : m.SameContents n) (p : Word) : decode m p = decode n p :=
  decode_congr fun j _ => h.instrByte p j

theorem Memory.SameContents.read (h : m.SameContents n) (a : Word) (w : Width) :
    m.read a (widthBytes w) = n.read a (widthBytes w) := read_congr (widthBytes_le w) fun _ _ => h.2 _

theorem Memory.SameContents.setByteAt (h : m.SameContents n) (a : Word) (b : Byte) :
    (m.setByteAt a b).SameContents (n.setByteAt a b) := by
  obtain ⟨hsize, hbytes⟩ := h
  refine ⟨by rw [Memory.setByteAt_size, Memory.setByteAt_size, hsize], fun q => ?_⟩
  by_cases hq : m.phys q = m.phys a
  · have hq' : n.phys q = n.phys a := by
      rwa [← Memory.phys_of_size_eq hsize, ← Memory.phys_of_size_eq hsize]
    rw [m.byteAt_setByteAt_self hq, n.byteAt_setByteAt_self hq']
  · have hq' : n.phys q ≠ n.phys a := by
      rwa [← Memory.phys_of_size_eq hsize, ← Memory.phys_of_size_eq hsize]
    rw [m.byteAt_setByteAt_ne hq, n.byteAt_setByteAt_ne hq', hbytes]

theorem Memory.SameContents.write (h : m.SameContents n) (a v : Word) (l : Nat) :
    (m.write a v l).SameContents (n.write a v l) := by
  induction l with
  | zero => exact h
  | succ l ih => exact ih.setByteAt _ _

variable {s t : State}

theorem State.SameContents.mem (h : s.SameContents t) : s.mem.SameContents t.mem := h.2.2.2.2.2.2

theorem State.SameContents.reg (h : s.SameContents t) (r : RegName) : s.reg r = t.reg r := by
  obtain ⟨ha, hb, hx, hy, hip, -, -⟩ := h
  rcases r with ⟨_ | _ | _ | _⟩ | _ <;> assumption

theorem State.SameContents.setReg (h : s.SameContents t) (r : RegName) (w : Width) (v : Word) :
    (s.setReg r w v).SameContents (t.setReg r w v) := by
  obtain ⟨ha, hb, hx, hy, hip, hf, hm⟩ := h
  rcases r with ⟨_ | _ | _ | _⟩ | _ <;> refine ⟨?_, ?_, ?_, ?_, ?_, hf, hm⟩ <;>
    simp only [State.setReg, ha, hb, hx, hy, hip]

theorem State.SameContents.dstMem (h : s.SameContents t) (w : Width) (a v : Word) :
    (s.dstMem w a v).SameContents (t.dstMem w a v) := by
  obtain ⟨ha, hb, hx, hy, hip, hf, hm⟩ := h
  exact ⟨ha, hb, hx, hy, hip, hf, hm.write a v _⟩

theorem State.SameContents.advanceIp (h : s.SameContents t) (d : Word) :
    (s.advanceIp d).SameContents (t.advanceIp d) := by
  have hip : s.ip = t.ip := h.reg .ip
  rw [State.advanceIp, State.advanceIp, hip]
  exact h.setReg .ip .w32 _

theorem State.SameContents.storeReg (h : s.SameContents t) (w : Width) (src : Reg) (a : Word) :
    (s.storeReg w src a).SameContents (t.storeReg w src a) := by
  rw [State.storeReg, State.storeReg, State.srcReg, State.srcReg, h.reg]
  exact h.dstMem w a _

theorem State.SameContents.loadReg (h : s.SameContents t) (w : Width) (a : Word) (dst : Reg) :
    (s.loadReg w a dst).SameContents (t.loadReg w a dst) := by
  rw [State.loadReg, State.loadReg, State.srcMem, State.srcMem, h.mem.read]
  exact h.setReg _ w _

theorem State.SameContents.copyMem (h : s.SameContents t) (w : Width) (a b : Word) :
    (s.copyMem w a b).SameContents (t.copyMem w a b) := by
  rw [State.copyMem, State.copyMem, State.srcMem, State.srcMem, h.mem.read]
  exact h.dstMem w b _

/-- Every instruction takes states with the same contents to states with the same contents. -/
theorem exec_sameContents (h : s.SameContents t) (i : Instr) :
    ∃ s' t', exec i s = .next s' ∧ exec i t = .next t' ∧ s'.SameContents t' := by
  cases i with
  | halt => exact ⟨s, t, rfl, rfl, h⟩
  | movRR src dst =>
    refine ⟨_, _, rfl, rfl, ?_⟩
    rw [h.reg]
    exact h.setReg _ _ _
  | movRM8 | movRM16 | movRM32 => exact ⟨_, _, rfl, rfl, h.storeReg _ _ _⟩
  | movMR8 | movMR16 | movMR32 => exact ⟨_, _, rfl, rfl, h.loadReg _ _ _⟩
  | movMM8 | movMM16 | movMM32 => exact ⟨_, _, rfl, rfl, h.copyMem _ _ _⟩

theorem State.SameContents.decode_ip (h : s.SameContents t) :
    Sys2Proof.decode s.mem s.ip = Sys2Proof.decode t.mem t.ip := by
  have hip : s.ip = t.ip := h.reg .ip
  rw [h.mem.decode, hip]

end SameContents

/-- Settles O46: the two states decode alike, so they run one instruction or fail with one error. -/
theorem stepsDependOnContentsAlone : Obligations.StepsDependOnContentsAlone := by
  intro s t h
  have hd := h.decode_ip
  constructor
  · intro s' hs
    obtain ⟨i, d, hi, hexec⟩ := step_next hs
    obtain ⟨u, t', hu, ht', hsame⟩ := exec_sameContents (h.advanceIp d) i
    cases hexec.symm.trans hu
    exact ⟨t', (step_of_ok (hd.symm.trans hi)).trans ht', hsame⟩
  · intro r hs
    rcases step_cases s with ⟨-, s', hn⟩ | ⟨e, he, hf⟩
    · cases hn.symm.trans hs
    · cases hf.symm.trans hs
      exact step_of_error (hd.symm.trans he)

end Sys2Proof.Machine
end

section
/-! SUPPORT. Runs of cycles: a host's run to HALT (R84) and safe runs (D16), by induction on the number of
cycles. After them, the flags container (R28) and the words written out from the spec. -/

namespace Sys2Proof.Machine

/-! ## A host's run to HALT -/

theorem runToHalt_of_error {s : State} {e : DecodeError} (h : decode s.mem s.ip = .error e) (n : Nat) :
    runToHalt (n + 1) s = .error s e := by
  rw [runToHalt, State.response_of_error h]

theorem runToHalt_of_halt {s : State} {d : Word} (h : decode s.mem s.ip = .ok .halt d) (n : Nat) :
    runToHalt (n + 1) s = .halted { s with ip := s.ip + 1#32 } := by
  have hb := (halt_byte_of_decode h).1
  rw [runToHalt, State.response_of_ok h, step_of_halt_byte hb, stateAfter]

theorem runToHalt_of_other {s : State} {i : Instr} {d : Word} (h : decode s.mem s.ip = .ok i d)
    (hi : i ≠ .halt) (n : Nat) : runToHalt (n + 1) s = runToHalt n (cycle s).1 := by
  rw [runToHalt, State.response_of_ok h]
  cases i with
  | halt => exact absurd rfl hi
  | _ => rfl

/-- A run cycles until a HALT byte, a decode error or its bound, whichever comes first. -/
theorem runToHalt_cases (n : Nat) (s : State) :
    (∃ k, k < n ∧ (afterCycles s k).mem.byteAt (afterCycles s k).ip = 0x00#8 ∧
      runToHalt n s = .halted { afterCycles s k with ip := (afterCycles s k).ip + 1#32 }) ∨
    (∃ k e, k < n ∧ decode (afterCycles s k).mem (afterCycles s k).ip = .error e ∧
      runToHalt n s = .error (afterCycles s k) e) ∨
    runToHalt n s = .running (afterCycles s n) := by
  induction n generalizing s with
  | zero => exact .inr (.inr rfl)
  | succ n ih =>
    cases hd : decode s.mem s.ip with
    | error e => exact .inr (.inl ⟨0, e, Nat.succ_pos n, hd, runToHalt_of_error hd n⟩)
    | ok i d =>
      by_cases hi : i = .halt
      · subst hi
        exact .inl ⟨0, Nat.succ_pos n, (halt_byte_of_decode hd).1, runToHalt_of_halt hd n⟩
      · rw [runToHalt_of_other hd hi n]
        rcases ih (cycle s).1 with ⟨k, hk, hend⟩ | ⟨k, e, hk, hend⟩ | hend
        · exact .inl ⟨k + 1, Nat.succ_lt_succ hk, hend⟩
        · exact .inr (.inl ⟨k + 1, e, Nat.succ_lt_succ hk, hend⟩)
        · exact .inr (.inr hend)

/-- Settles O47: of the three ways a run can end, the first is the halted one and the second the error. -/
theorem runToHaltEndsOnePastAHaltByte : Obligations.RunToHaltEndsOnePastAHaltByte := by
  intro n s t
  rcases runToHalt_cases n s with ⟨k, hk, hbyte, hrun⟩ | ⟨k, e, hk, herr, hrun⟩ | hrun <;> rw [hrun]
  · refine ⟨fun h => ?_, fun _ h => nomatch h⟩
    cases h
    exact ⟨k, hk, hbyte, rfl⟩
  · refine ⟨(nomatch ·), fun e' h => ?_⟩
    cases h
    exact ⟨k, hk, rfl, herr⟩
  · exact ⟨(nomatch ·), fun _ h => nomatch h⟩

/-! ## Safe runs -/

theorem cycle_of_next {s t : State} (h : step s = .next t) : (cycle s).1 = t := by
  rw [cycle, h, stateAfter]

theorem response_ok_iff (s : State) : (∃ i, (cycle s).2 = .ok i) ↔ ∃ t, step s = .next t := by
  rw [step_next_iff]
  constructor
  · rintro ⟨i, hi⟩
    cases hd : decode s.mem s.ip with
    | ok i' d => exact ⟨i', d, rfl⟩
    | error e => cases (State.response_of_error hd).symm.trans hi
  · rintro ⟨i, d, hd⟩
    exact ⟨i, State.response_of_ok hd⟩

theorem safeFor_succ (k : Nat) (s : State) :
    SafeFor (k + 1) s ↔ (∃ t, step s = .next t) ∧ SafeFor k (cycle s).1 := by
  constructor
  · rintro ⟨t, ht, hsafe⟩
    exact ⟨⟨t, ht⟩, (cycle_of_next ht).symm ▸ hsafe⟩
  · rintro ⟨⟨t, ht⟩, hsafe⟩
    exact ⟨t, ht, cycle_of_next ht ▸ hsafe⟩

/-- Settles O48: by induction on the number of cycles, a step completes exactly where the cycle's response is
an executed instruction. -/
theorem safeRunsAreRunsWithoutDecodeErrors : Obligations.SafeRunsAreRunsWithoutDecodeErrors := by
  intro k s
  induction k generalizing s with
  | zero => simp [SafeFor]
  | succ k ih =>
    rw [safeFor_succ, ih, ← response_ok_iff, Nat.forall_lt_succ_left]
    rfl

/-! ## The flags container -/

/-- All bits of a mask are set exactly when each is (R28; the spec's D5). -/
theorem FlagSet.contains_iff (f : FlagSet) (mask : BitVec f.width) : f.contains mask = true ↔
    ∀ i, i < f.width → mask.getLsbD i = true → f.value.getLsbD i = true := by
  rw [FlagSet.contains, beq_iff_eq, FlagSet.value]
  constructor
  · intro h i _ hm
    rw [← h, BitVec.getLsbD_and, Bool.and_eq_true] at hm
    exact hm.1
  · intro h
    apply BitVec.eq_of_getLsbD_eq
    intro i hi
    rw [BitVec.getLsbD_and]
    cases hm : mask.getLsbD i with
    | false => exact Bool.and_false _
    | true => rw [h i hi hm, Bool.and_true]

/-- Settles O21: each operation is one bitwise operation on the container's bits. -/
theorem flagsContainerOperationsBitByBit : Obligations.FlagsContainerOperationsBitByBit := by
  refine fun f mask => ⟨f.contains_iff mask, rfl, rfl, rfl, rfl, fun i hi => ⟨?_, ?_, ?_, ?_⟩⟩
  · exact BitVec.getLsbD_or
  · simp only [FlagSet.clear, FlagSet.value, BitVec.getLsbD_and, BitVec.getLsbD_not, hi, decide_true, Bool.true_and]
  · exact BitVec.getLsbD_and
  · exact BitVec.getLsbD_xor

/-! ## Words written out from the spec -/

/-- Settles O1: nine words of the spec's vectors, decoded. -/
theorem writtenOutWordsDecode : Obligations.WrittenOutWordsDecode := by
  unfold Obligations.WrittenOutWordsDecode
  decide

end Sys2Proof.Machine
end
